-- ==== Sys2Proof/Word.lean ====
section
/-! DEFINITION. The word types of CRC32-PBV: registers and addresses are 32 bits (R8, R23, R60), a
storage or destination unit is one byte (R61, R62), a length, offset or size is 16 bits (R7, R36, R37). -/

namespace Sys2Proof

/-- A register of the window: 32 bits, unsigned (R11, R23). -/
abbrev Word := BitVec 32

/-- A storage, destination or host address: ADDR_W = 32 bits, arithmetic modulo 2^32 (R8, R73). -/
abbrev Addr := BitVec 32

/-- A 16-bit field: the header length, ARG_OFFSET.OFFSET, ARG_SIZE.SIZE (R33, R36, R37). -/
abbrev Half := BitVec 16

/-- The unit of the storage and destination spaces (R61, R62). -/
abbrev Byte := BitVec 8

end Sys2Proof
end

