-- ==== Sys2Proof/Config.lean ====
section
/-! DEFINITION. What is fixed for a machine: the constants of R7 and R8, the platform's parameters of
R9 (as a structure that State carries unchanged, so that a claim about every state holds for every
platform), and the one value the spec leaves undefined (R192). -/

namespace Sys2Proof
namespace Config

/-- CRC_POLY, the reflected polynomial (R7). -/
abbrev crcPoly : Word := 0xEDB88320

/-- CRC_INIT, the accumulator after reset (R7). -/
abbrev crcInit : Word := 0xFFFFFFFF

/-- CRC_XOROUT: finalize is the bitwise NOT (R7). -/
abbrev crcXorOut : Word := 0xFFFFFFFF

/-- HDR_SIZE (R8). -/
abbrev hdrSize : Nat := 5

/-- CHECKSUM_SIZE (R7). -/
abbrev checksumSize : Nat := 4

/-- MIN_LENGTH = HDR_SIZE + CHECKSUM_SIZE (R8). -/
abbrev minLength : Nat := 9

/-- The register window spans the byte offsets 0x00 to 0x3F (R60). -/
abbrev windowSize : Nat := 0x40

/-- The read data that comes with SLVERR "is not defined" (R192): a free value, one for each use.
Nothing is known of it (log 11). -/
opaque busErrorData : Nat → Word

end Config

/-- An inclusive range of 32-bit addresses. -/
structure AddrRange where
  lo : Addr
  hi : Addr
deriving DecidableEq, Repr

/-- The parameters of R9 other than the storage contents.  They are constant during a run: no step
changes them. -/
structure Platform where
  /-- TAG_SENTINEL, the tag of a present block (R9). -/
  tagSentinel : Byte
  /-- REG_BASE, where the host sees the register window (R9, R23). -/
  regBase : Addr
  /-- DestAdmits (R9): the destination addresses that accept a write, as the union of ranges. -/
  destAdmits : List AddrRange
  /-- Whether the storage and destination spaces are one physical memory here: they "may be", and the
  block assumes nothing about it (R60, R81).  DESIGN CHOICE of form (log 8). -/
  shared : Bool
deriving DecidableEq, Repr

/-- The platform of `State.reset`: the sentinel's default of R9; the rest is OPEN in the spec and
chosen here (DESIGN CHOICE, logs 4 and 8). -/
def Platform.default : Platform :=
  { tagSentinel := 0xEE
    regBase := 0
    destAdmits := [{ lo := 0, hi := 0xFFFFFFFF }]
    shared := false }

end Sys2Proof
end

