-- ==== Sys2Proof/Syntax.lean ====
section
/-! DEFINITION. The syntax: the registers of the window (R23), the commands of the opcode map (R96),
one constructor of `Instr` for each row of spec/opcode_table.json, the host's accesses and events
(R6, R190, R241), and the host-side assembly lines (R101, R102). -/

namespace Sys2Proof

/-- The mapped registers of the window, in the order of their offsets (R23). -/
inductive Reg where
  | cmd
  | status
  | crcState
  | crcResult
  | regionBase
  | regionSize
  | hdrId
  | hdrLen
  | expected
  | computed
  | argOffset
  | argSize
  | argDest
  | rdata
deriving DecidableEq, Repr

/-- What a word written to CMD names (R96, R98).  `illegal` keeps the word (R196, "Operands: the
word `w`"). -/
inductive Command where
  | crcReset
  | crcUpdate (data8 : Byte)
  | crcFinalize
  | validate
  | readField
  | readScalarB
  | readScalarH
  | readScalarW
  | illegal (w : Word)
deriving DecidableEq, Repr

/-- One constructor for each row of spec/opcode_table.json: the commands (R96), the command word that
matches none of them (R196), and the register accesses (R100).  A write carries its 32-bit value. -/
inductive Instr where
  /-- CRC_RESET, R122. -/
  | crcReset
  /-- CRC_UPDATE, R123. -/
  | crcUpdate (data8 : Byte)
  /-- CRC_FINALIZE, R124. -/
  | crcFinalize
  /-- VALIDATE, R140. -/
  | validate
  /-- READ_FIELD, R172. -/
  | readField
  /-- READ_SCALAR.B, R174. -/
  | readScalarB
  /-- READ_SCALAR.H, R175. -/
  | readScalarH
  /-- READ_SCALAR.W, R176. -/
  | readScalarW
  /-- ILLEGAL_CMD: a word that matches no row of the opcode map, R196. -/
  | illegalCmd (w : Word)
  /-- RD.CMD, R197. -/
  | rdCmd
  /-- WR.CMD, R195. -/
  | wrCmd (v : Word)
  /-- RD.STATUS, R191. -/
  | rdStatus
  /-- WR.STATUS, R194. -/
  | wrStatus (v : Word)
  /-- RD.CRC_STATE, R191. -/
  | rdCrcState
  /-- WR.CRC_STATE, R194. -/
  | wrCrcState (v : Word)
  /-- RD.CRC_RESULT, R191. -/
  | rdCrcResult
  /-- WR.CRC_RESULT, R194. -/
  | wrCrcResult (v : Word)
  /-- RD.REGION_BASE, R191. -/
  | rdRegionBase
  /-- WR.REGION_BASE, R193. -/
  | wrRegionBase (v : Word)
  /-- RD.REGION_SIZE, R191. -/
  | rdRegionSize
  /-- WR.REGION_SIZE, R193. -/
  | wrRegionSize (v : Word)
  /-- RD.HDR_ID, R191. -/
  | rdHdrId
  /-- WR.HDR_ID, R194. -/
  | wrHdrId (v : Word)
  /-- RD.HDR_LEN, R191. -/
  | rdHdrLen
  /-- WR.HDR_LEN, R194. -/
  | wrHdrLen (v : Word)
  /-- RD.EXPECTED, R191. -/
  | rdExpected
  /-- WR.EXPECTED, R194. -/
  | wrExpected (v : Word)
  /-- RD.COMPUTED, R191. -/
  | rdComputed
  /-- WR.COMPUTED, R194. -/
  | wrComputed (v : Word)
  /-- RD.ARG_OFFSET, R191. -/
  | rdArgOffset
  /-- WR.ARG_OFFSET, R193. -/
  | wrArgOffset (v : Word)
  /-- RD.ARG_SIZE, R191. -/
  | rdArgSize
  /-- WR.ARG_SIZE, R193. -/
  | wrArgSize (v : Word)
  /-- RD.ARG_DEST, R191. -/
  | rdArgDest
  /-- WR.ARG_DEST, R193. -/
  | wrArgDest (v : Word)
  /-- RD.RDATA, R191. -/
  | rdRdata
  /-- WR.RDATA, R194. -/
  | wrRdata (v : Word)
  /-- A read of the reserved offset 0x38, R192. -/
  | slverr38R
  /-- A write to the reserved offset 0x38, R192. -/
  | slverr38W (v : Word)
  /-- A read of the reserved offset 0x3C, R192. -/
  | slverr3cR
  /-- A write to the reserved offset 0x3C, R192. -/
  | slverr3cW (v : Word)
deriving DecidableEq, Repr

/-- The instruction of a command. -/
def Command.toInstr : Command → Instr
  | .crcReset => .crcReset
  | .crcUpdate b => .crcUpdate b
  | .crcFinalize => .crcFinalize
  | .validate => .validate
  | .readField => .readField
  | .readScalarB => .readScalarB
  | .readScalarH => .readScalarH
  | .readScalarW => .readScalarW
  | .illegal w => .illegalCmd w

/-- The direction of a register access; a write carries its data (R190). -/
inductive Transfer where
  | read
  | write (v : Word)
deriving DecidableEq, Repr

/-- One access of the host to the register port: its host address, its width in bits (only 32 is
legal, R190) and its direction. -/
structure Access where
  addr : Addr
  width : Nat
  op : Transfer
deriving DecidableEq, Repr

/-- What the outside world can do to the block (R6, R190, R241). -/
inductive HostEvent where
  /-- One register access. -/
  | access (a : Access)
  /-- Hardware reset between commands (R241). -/
  | reset
  /-- A 32-bit write of `w` to CMD during which hardware reset is asserted, once the command has made
  `after` of its storage and destination accesses, or all it can make where it makes fewer (R241;
  log 17). -/
  | resetDuring (w : Word) (after : Nat)
deriving DecidableEq, Repr

/-- What a decoder is given: a command word (the CMD write data), or a whole register access. -/
inductive Issue where
  | command (w : Word)
  | access (a : Access)
deriving DecidableEq, Repr

/-- The lines of the host-side assembly (R101) and its pseudo-instructions (R102). -/
inductive Asm where
  | crcReset
  | crcUpdate (b : Byte)
  | crcFinal
  | pbValidate
  | pbReadField
  | pbReadsB
  | pbReadsH
  | pbReadsW
  | wr (r : Reg) (v : Word)
  | rd (r : Reg)
  | cmd (v : Word)
  | crcBytes (bs : List Byte)
  | pbRegion (base size : Word)
  | pbField (off size dest : Word)
  | pbScalarB (off : Word)
  | pbScalarH (off : Word)
  | pbScalarW (off : Word)
  | crcOf (bs : List Byte)
deriving DecidableEq, Repr

end Sys2Proof
end

