-- ==== Sys2Proof/WellFormed.lean ====
section
/-! DEFINITION. When an instruction is one that a decoder can give.  Every operand of a legal command
or register access is admitted at every value, so the one check is on ILLEGAL_CMD: its word must match
no row of the opcode map (R96, R196). -/

namespace Sys2Proof

/-- A row of the opcode map: `w` names the row's command when `(w & mask) = pattern` (R96, R98). -/
structure OpcodeRow where
  mask : Word
  pattern : Word
deriving DecidableEq, Repr

/-- Does the word match the row (R98)? -/
def OpcodeRow.covers (r : OpcodeRow) (w : Word) : Bool := w &&& r.mask == r.pattern

/-- The legal rows of the opcode map, in the order of R96. -/
def opcodeMap : List OpcodeRow :=
  [ { mask := 0xFFFFFFFF, pattern := 0x00000001 },
    { mask := 0xFFFF00FF, pattern := 0x00000002 },
    { mask := 0xFFFFFFFF, pattern := 0x00000003 },
    { mask := 0xFFFFFFFF, pattern := 0x00000004 },
    { mask := 0xFFFFFFFF, pattern := 0x00000005 },
    { mask := 0xFFFFFFFF, pattern := 0x00000006 },
    { mask := 0xFFFFFFFF, pattern := 0x00010006 },
    { mask := 0xFFFFFFFF, pattern := 0x00020006 } ]

/-- A word that some legal row of the opcode map covers. -/
def legalWord (w : Word) : Bool := opcodeMap.any fun r => r.covers w

/-- The check of a command. -/
def Command.wellFormed : Command → Bool
  | .illegal w => !legalWord w
  | .crcReset | .crcUpdate _ | .crcFinalize | .validate | .readField => true
  | .readScalarB | .readScalarH | .readScalarW => true

/-- The check of an instruction. -/
def Instr.wellFormed : Instr → Bool
  | .illegalCmd w => !legalWord w
  | .crcReset | .crcUpdate _ | .crcFinalize | .validate | .readField => true
  | .readScalarB | .readScalarH | .readScalarW => true
  | .rdCmd | .rdStatus | .rdCrcState | .rdCrcResult | .rdRegionBase | .rdRegionSize | .rdHdrId => true
  | .rdHdrLen | .rdExpected | .rdComputed | .rdArgOffset | .rdArgSize | .rdArgDest | .rdRdata => true
  | .wrCmd _ | .wrStatus _ | .wrCrcState _ | .wrCrcResult _ | .wrRegionBase _ | .wrRegionSize _ => true
  | .wrHdrId _ | .wrHdrLen _ | .wrExpected _ | .wrComputed _ | .wrArgOffset _ | .wrArgSize _ => true
  | .wrArgDest _ | .wrRdata _ => true
  | .slverr38R | .slverr38W _ | .slverr3cR | .slverr3cW _ => true

end Sys2Proof
end

