-- ==== Sys2Proof/Decode.lean ====
section
/-! DEFINITION. Decoding, total on every command word and every register access, and the encoder
beside it.  A command word follows R91 and R98; a register access follows R100, R190 and R192. -/

namespace Sys2Proof

/-! ### Command words -/

/-- OPC = w[3:0] (R91). -/
def opc (w : Word) : BitVec 4 := w.extractLsb' 0 4

/-- RSV0 = w[7:4] (R91). -/
def rsv0 (w : Word) : BitVec 4 := w.extractLsb' 4 4

/-- DATA8 = w[15:8] (R91, R93). -/
def data8 (w : Word) : Byte := w.extractLsb' 8 8

/-- WIDTH = w[17:16] (R91). -/
def widthField (w : Word) : BitVec 2 := w.extractLsb' 16 2

/-- RSV1 = w[31:18] (R91). -/
def rsv1 (w : Word) : BitVec 14 := w.extractLsb' 18 14

/-- The decoder of R98, in its order. -/
def decodeCommand (w : Word) : Command :=
  if rsv0 w ≠ 0 ∨ rsv1 w ≠ 0 then .illegal w
  else if opc w = 0x1 ∧ data8 w = 0 ∧ widthField w = 0 then .crcReset
  else if opc w = 0x2 ∧ widthField w = 0 then .crcUpdate (data8 w)
  else if opc w = 0x3 ∧ data8 w = 0 ∧ widthField w = 0 then .crcFinalize
  else if opc w = 0x4 ∧ data8 w = 0 ∧ widthField w = 0 then .validate
  else if opc w = 0x5 ∧ data8 w = 0 ∧ widthField w = 0 then .readField
  else if opc w = 0x6 ∧ data8 w = 0 ∧ widthField w = 0 then .readScalarB
  else if opc w = 0x6 ∧ data8 w = 0 ∧ widthField w = 1 then .readScalarH
  else if opc w = 0x6 ∧ data8 w = 0 ∧ widthField w = 2 then .readScalarW
  else .illegal w

/-- The word of a command: the exact words of R96; CRC_UPDATE puts its byte in bits [15:8]. -/
def encodeCommand : Command → Word
  | .crcReset => 0x00000001
  | .crcUpdate b => 0x0000#16 ++ b ++ 0x02#8
  | .crcFinalize => 0x00000003
  | .validate => 0x00000004
  | .readField => 0x00000005
  | .readScalarB => 0x00000006
  | .readScalarH => 0x00010006
  | .readScalarW => 0x00020006
  | .illegal w => w

/-! ### Register accesses -/

/-- The byte offset of a register in the window (R23). -/
def Reg.offset : Reg → Nat
  | .cmd => 0x00
  | .status => 0x04
  | .crcState => 0x08
  | .crcResult => 0x0C
  | .regionBase => 0x10
  | .regionSize => 0x14
  | .hdrId => 0x18
  | .hdrLen => 0x1C
  | .expected => 0x20
  | .computed => 0x24
  | .argOffset => 0x28
  | .argSize => 0x2C
  | .argDest => 0x30
  | .rdata => 0x34

/-- The mapped registers, in the order of their offsets (R23). -/
def Reg.all : List Reg :=
  [ .cmd, .status, .crcState, .crcResult, .regionBase,
    .regionSize, .hdrId, .hdrLen, .expected, .computed,
    .argOffset, .argSize, .argDest, .rdata ]

/-- The register at an offset, if one is mapped there (R23). -/
def Reg.ofOffset (off : Nat) : Option Reg := Reg.all.find? fun r => r.offset == off

/-- RD.<REG> (R100). -/
def Reg.rdInstr : Reg → Instr
  | .cmd => .rdCmd
  | .status => .rdStatus
  | .crcState => .rdCrcState
  | .crcResult => .rdCrcResult
  | .regionBase => .rdRegionBase
  | .regionSize => .rdRegionSize
  | .hdrId => .rdHdrId
  | .hdrLen => .rdHdrLen
  | .expected => .rdExpected
  | .computed => .rdComputed
  | .argOffset => .rdArgOffset
  | .argSize => .rdArgSize
  | .argDest => .rdArgDest
  | .rdata => .rdRdata

/-- WR.<REG>, or the command issue for CMD (R100). -/
def Reg.wrInstr (v : Word) : Reg → Instr
  | .cmd => .wrCmd v
  | .status => .wrStatus v
  | .crcState => .wrCrcState v
  | .crcResult => .wrCrcResult v
  | .regionBase => .wrRegionBase v
  | .regionSize => .wrRegionSize v
  | .hdrId => .wrHdrId v
  | .hdrLen => .wrHdrLen v
  | .expected => .wrExpected v
  | .computed => .wrComputed v
  | .argOffset => .wrArgOffset v
  | .argSize => .wrArgSize v
  | .argDest => .wrArgDest v
  | .rdata => .wrRdata v

/-- The instruction of a 32-bit access at the aligned window offset `off`: a mapped register's row of
R100, or a reserved offset's (0x38, and 0x3C, the only one left). -/
def windowInstr (off : Nat) (op : Transfer) : Instr :=
  match Reg.ofOffset off, op with
  | some r, .read => r.rdInstr
  | some r, .write v => r.wrInstr v
  | none, .read => if off = 0x38 then .slverr38R else .slverr3cR
  | none, .write v => if off = 0x38 then .slverr38W v else .slverr3cW v

/-- What decoding gives: an instruction, or by name why there is none. -/
inductive Decoded where
  | instr (i : Instr)
  /-- The address is outside the window: the access is not the block's (log 14). -/
  | notSelected
  /-- The width is not 32 bits: SLVERR (R192). -/
  | badWidth
  /-- `off[1:0]` is not 0: SLVERR (R192). -/
  | misaligned
deriving DecidableEq, Repr

/-- The offset of a host address from REG_BASE, modulo 2^32 (R23; log 14). -/
def windowOffset (regBase addr : Addr) : Nat := (addr - regBase).toNat

/-- Decoding of a register access (R100, R190, R192). -/
def decodeAccess (regBase : Addr) (a : Access) : Decoded :=
  if Config.windowSize ≤ windowOffset regBase a.addr then .notSelected
  else if a.width ≠ 32 then .badWidth
  else if windowOffset regBase a.addr % 4 ≠ 0 then .misaligned
  else .instr (windowInstr (windowOffset regBase a.addr) a.op)

/-- Decoding of either form: total. -/
def decode (regBase : Addr) : Issue → Decoded
  | .command w => .instr (decodeCommand w).toInstr
  | .access a => decodeAccess regBase a

/-- The legal read of the window offset `off` (R190). -/
def readAt (regBase : Addr) (off : Nat) : Access :=
  { addr := regBase + BitVec.ofNat 32 off, width := 32, op := .read }

/-- The legal write of `v` to the window offset `off` (R190). -/
def writeAt (regBase : Addr) (off : Nat) (v : Word) : Access :=
  { addr := regBase + BitVec.ofNat 32 off, width := 32, op := .write v }

/-- The encoder: a command's word (R96), or the register access of R100. -/
def encode (regBase : Addr) : Instr → Issue
  | .crcReset => .command (encodeCommand .crcReset)
  | .crcUpdate b => .command (encodeCommand (.crcUpdate b))
  | .crcFinalize => .command (encodeCommand .crcFinalize)
  | .validate => .command (encodeCommand .validate)
  | .readField => .command (encodeCommand .readField)
  | .readScalarB => .command (encodeCommand .readScalarB)
  | .readScalarH => .command (encodeCommand .readScalarH)
  | .readScalarW => .command (encodeCommand .readScalarW)
  | .illegalCmd w => .command (encodeCommand (.illegal w))
  | .rdCmd => .access (readAt regBase 0x00)
  | .wrCmd v => .access (writeAt regBase 0x00 v)
  | .rdStatus => .access (readAt regBase 0x04)
  | .wrStatus v => .access (writeAt regBase 0x04 v)
  | .rdCrcState => .access (readAt regBase 0x08)
  | .wrCrcState v => .access (writeAt regBase 0x08 v)
  | .rdCrcResult => .access (readAt regBase 0x0C)
  | .wrCrcResult v => .access (writeAt regBase 0x0C v)
  | .rdRegionBase => .access (readAt regBase 0x10)
  | .wrRegionBase v => .access (writeAt regBase 0x10 v)
  | .rdRegionSize => .access (readAt regBase 0x14)
  | .wrRegionSize v => .access (writeAt regBase 0x14 v)
  | .rdHdrId => .access (readAt regBase 0x18)
  | .wrHdrId v => .access (writeAt regBase 0x18 v)
  | .rdHdrLen => .access (readAt regBase 0x1C)
  | .wrHdrLen v => .access (writeAt regBase 0x1C v)
  | .rdExpected => .access (readAt regBase 0x20)
  | .wrExpected v => .access (writeAt regBase 0x20 v)
  | .rdComputed => .access (readAt regBase 0x24)
  | .wrComputed v => .access (writeAt regBase 0x24 v)
  | .rdArgOffset => .access (readAt regBase 0x28)
  | .wrArgOffset v => .access (writeAt regBase 0x28 v)
  | .rdArgSize => .access (readAt regBase 0x2C)
  | .wrArgSize v => .access (writeAt regBase 0x2C v)
  | .rdArgDest => .access (readAt regBase 0x30)
  | .wrArgDest v => .access (writeAt regBase 0x30 v)
  | .rdRdata => .access (readAt regBase 0x34)
  | .wrRdata v => .access (writeAt regBase 0x34 v)
  | .slverr38R => .access (readAt regBase 0x38)
  | .slverr38W v => .access (writeAt regBase 0x38 v)
  | .slverr3cR => .access (readAt regBase 0x3C)
  | .slverr3cW v => .access (writeAt regBase 0x3C v)

/-! ### The host's numbering of an instruction's bits (spec/opcode_table.json) -/

/-- A register row of the table gives the window offset in bits [5:0] and neither the direction nor
the data.  Here bit 6 is the direction (0 read, 1 write) and bits [39:8] are the data (DESIGN CHOICE,
log 2). -/
def tableAccess (regBase : Addr) (w : Nat) : Access :=
  if (w / 64) % 2 = 0 then readAt regBase (w % 64)
  else writeAt regBase (w % 64) (BitVec.ofNat 32 (w / 256))

/-- The issue that a table word stands for: 32 bits are a command word; any other length is a
register access (log 2). -/
def tableIssue (regBase : Addr) (nbits w : Nat) : Issue :=
  if nbits = 32 then .command (BitVec.ofNat 32 w) else .access (tableAccess regBase w)

/-- The instruction this decoder reads from a table word. -/
def decodeTableWord (nbits w : Nat) : Option Instr :=
  match decode 0 (tableIssue 0 nbits w) with
  | .instr i => some i
  | .notSelected => none
  | .badWidth => none
  | .misaligned => none

/-- The register access that brings an issue to the block: a command word arrives as a write to CMD
(R24, R195). -/
def Issue.toAccess (regBase : Addr) : Issue → Access
  | .command w => writeAt regBase Reg.cmd.offset w
  | .access a => a

end Sys2Proof
end

