-- ==== Sys2Proof/Machine/Memory.lean ====
section
/-! DEFINITION. A byte memory as plain data: the cells that are listed, by rising address, each address
once and below 2^32 (R61, R62).  The storage and destination spaces are both held so. -/

namespace Sys2Proof.Machine

/-- Listed cells (address, byte). -/
abbrev Memory := List Host.Cell

/-- What an unlisted address reads as: no value.  For the storage it does not answer (R13, R70; log 5);
for the destination the block has written nothing there (R41; log 7). -/
def Memory.unlisted : Option Byte := none

/-- The byte at an address. -/
def Memory.get : Memory → Nat → Option Byte
  | [], _ => Memory.unlisted
  | (k, b) :: m, a => if k = a then some b else Memory.get m a

/-- The memory with one byte written; the cells stay in order. -/
def Memory.put : Memory → Nat → Byte → Memory
  | [], a, v => [(a, v)]
  | (k, b) :: m, a, v =>
    if a < k then (a, v) :: (k, b) :: m
    else if a = k then (a, v) :: m
    else (k, b) :: Memory.put m a v

/-- Consecutive bytes written from an address upwards, modulo 2^32 (R73). -/
def Memory.putBytes : Memory → Addr → List Byte → Memory
  | m, _, [] => m
  | m, a, b :: bs => Memory.putBytes (m.put a.toNat b) (a + 1#32) bs

/-- The canonical form: addresses strictly rising and below 2^32.  No listed entry equals what an
unlisted address reads as, since that is no value. -/
abbrev Memory.wf (m : Memory) : Prop :=
  m.Pairwise (fun c d => c.1 < d.1) ∧ ∀ c ∈ m, c.1 < 2 ^ 32

end Sys2Proof.Machine
end

