-- ==== Sys2Proof/Machine/State.lean ====
section
/-! DEFINITION. The state: the registers of the window (R23), the spec's bookkeeping (R42), the
platform's memories and parameters (R9, R40, R41), and the model's own queue, port answer and counter
of free values; the reasons a step can stop; the state after reset (R240). -/

namespace Sys2Proof.Machine

/-- STATUS.VRESULT (R25).  The codes 5 to 7 are never produced, so they have no constructor. -/
inductive VResult where
  | none
  | ok
  | checksumMismatch
  | headerNotFound
  | lengthInvalid
deriving DecidableEq, Repr

/-- STATUS.CERR (R25).  The codes 4 to 7 are never produced, so they have no constructor. -/
inductive CErr where
  | none
  | illegalCmd
  | outOfBounds
  | notValidated
deriving DecidableEq, Repr

/-- The fields of HDR_ID (R32). -/
structure HdrId where
  tag : Byte
  major : Byte
  minor : Byte
deriving DecidableEq, Repr

/-- One entry of the event history (R42(b)). -/
inductive Event where
  | storageRead (a : Addr) (b : Byte)
  | destWrite (a : Addr) (b : Byte)
  | regRead (off : Nat) (v : Word)
  | regWrite (off : Nat) (v : Word)
deriving DecidableEq, Repr

/-- What the register port answered last (R191, R192, R195; log 12).  `none`: nothing since reset. -/
inductive PortResponse where
  | none
  | readData (v : Word)
  | writeDone
  /-- SLVERR to a read; the data is not defined (R192). -/
  | readError (v : Word)
  /-- SLVERR to a write (R192). -/
  | writeError
deriving DecidableEq, Repr

structure State where
  /-- STATUS.VRESULT (R25). -/
  vresult : VResult
  /-- STATUS.CERR (R25, R27). -/
  cerr : CErr
  /-- CRC_STATE (R28). -/
  crcState : Word
  /-- REGION_BASE (R30). -/
  regionBase : Word
  /-- REGION_SIZE (R31). -/
  regionSize : Word
  /-- HDR_ID (R32). -/
  hdrId : HdrId
  /-- HDR_LEN.LENGTH (R33). -/
  hdrLen : Half
  /-- EXPECTED (R34). -/
  expected : Word
  /-- COMPUTED (R35). -/
  computed : Word
  /-- ARG_OFFSET.OFFSET (R36). -/
  argOffset : Half
  /-- ARG_SIZE.SIZE (R37). -/
  argSize : Half
  /-- ARG_DEST (R38). -/
  argDest : Word
  /-- RDATA (R39). -/
  rdata : Word
  /-- The storage contents, constant during a run (R40); an address answers when it is listed. -/
  storage : Memory
  /-- What has been written to the destination space (R41). -/
  dest : Memory
  /-- The platform's parameters, constant during a run (R9). -/
  platform : Platform
  /-- `busFault` (R42(a), R192). -/
  busFault : Bool
  /-- The event history (R42(b)), newest first. -/
  history : List Event
  /-- The model's own: the host's events not yet served, oldest first (log 1). -/
  pending : List HostEvent
  /-- The model's own: the register port's last answer (log 12). -/
  response : PortResponse
  /-- The model's own: how many free values have been used (log 11). -/
  freeCount : Nat
deriving DecidableEq, Repr

/-- Why the block has no next step: an access that does not answer (R70, R218).  Each carries the
address and the state reached, since what the command did before stays done (R155(f), R179).  Safe:
the block has no next step there. -/
inductive Fault where
  /-- A storage read at an address the storage does not answer; raised by VALIDATE, READ_FIELD and
  READ_SCALAR.B/.H/.W (R70).  Safe. -/
  | storageStuck (a : Addr) (reached : State)
  /-- A destination write at an address DestAdmits refuses; raised by READ_FIELD (R70, R179).  Safe. -/
  | destStuck (a : Addr) (reached : State)
deriving DecidableEq, Repr

/-- Why the model gives no meaning. -/
inductive Refusal where
  /-- An instruction without a meaning; no arm of `exec` answers it.  Safe. -/
  | notModelled (mnemonic : String)
  /-- A destination write that would change the storage, on a platform where the two are one memory;
  raised by READ_FIELD: the spec gives such a run no meaning (R81, R179, R255; log 8).  Safe. -/
  | destOverlapsStorage (a : Addr) (reached : State)
deriving DecidableEq, Repr

/-- The state a stuck command reached. -/
def Fault.reached : Fault → State
  | .storageStuck _ s => s
  | .destStuck _ s => s

/-- The state a refused command reached, where one ran. -/
def Refusal.reached : Refusal → Option State
  | .notModelled _ => none
  | .destOverlapsStorage _ s => some s

/-- The outcome of a step or a meaning. -/
abbrev Result := Host.Outcome State Fault Refusal

/-- The outcome of a part of a command: a value and the state after it, or the end of the command. -/
inductive Reply (α : Type) where
  | done (v : α) (s : State)
  | fault (f : Fault)
  | refused (r : Refusal)
deriving Repr

/-- The state right after hardware reset, at the start of a run on a platform (R240): every register
at the value of R240's table, no event recorded, no fault, nothing pending. -/
def State.resetOn (p : Platform) (storage : Memory) : State :=
  { vresult := .none
    cerr := .none
    crcState := Config.crcInit
    regionBase := 0
    regionSize := 0
    hdrId := { tag := 0, major := 0, minor := 0 }
    hdrLen := 0
    expected := 0
    computed := 0
    argOffset := 0
    argSize := 0
    argDest := 0
    rdata := 0
    storage := storage
    dest := []
    platform := p
    busFault := false
    history := []
    pending := []
    response := .none
    freeCount := 0 }

/-- The machine right after reset (R240), on the platform of `Platform.default` with nothing listed in
either memory (logs 4, 5, 7). -/
def State.reset : State := State.resetOn Platform.default []

end Sys2Proof.Machine
end

