-- ==== Sys2Proof/Machine/Flags.lean ====
section
/-! DEFINITION. The STATUS register, the block's only flags (R25, R46): the codes of VRESULT and CERR
and the computed VALID. -/

namespace Sys2Proof.Machine

/-- The code of VRESULT (R25, R211). -/
def VResult.code : VResult → BitVec 3
  | .none => 0
  | .ok => 1
  | .checksumMismatch => 2
  | .headerNotFound => 3
  | .lengthInvalid => 4

/-- The code of CERR (R25, R211). -/
def CErr.code : CErr → BitVec 3
  | .none => 0
  | .illegalCmd => 1
  | .outOfBounds => 2
  | .notValidated => 3

/-- STATUS.VALID: not storage, `VRESULT == OK` (R26). -/
def State.valid (s : State) : Bool := s.vresult == .ok

/-- STATUS as a word: VRESULT [2:0], VALID [3], CERR [6:4], the rest 0 (R25). -/
def State.statusWord (s : State) : Word :=
  0#25 ++ s.cerr.code ++ BitVec.ofBool s.valid ++ s.vresult.code

end Sys2Proof.Machine
end

