-- ==== Sys2Proof/Machine/Operands.lean ====
section
/-! DEFINITION. The operands of the commands: storage and destination addresses (R73, R170), the
argument registers (R95), little-endian assembly (R14), the bound of the field commands (R171), and
the words of the header registers (R32, R33). -/

namespace Sys2Proof.Machine

/-- The storage address of block offset `k`: `(REGION_BASE + k) mod 2^32` (R73). -/
def State.blockAddr (s : State) (k : Nat) : Addr := s.regionBase + BitVec.ofNat 32 k

/-- FDADDR(i), the storage address of field offset `i` (R170). -/
def State.fieldAddr (s : State) (i : Nat) : Addr := s.blockAddr (Config.hdrSize + i)

/-- The operand `off = ARG_OFFSET.OFFSET` (R95). -/
def State.argOff (s : State) : Nat := s.argOffset.toNat

/-- The operand `n = ARG_SIZE.SIZE` (R95). -/
def State.argLen (s : State) : Nat := s.argSize.toNat

/-- `InBounds(off, n)`, that is `off + n ≤ FDLEN` with `FDLEN = LENGTH - 9` (R170, R171).  The
difference is an exact integer (R11), so 9 is added on the left instead (log 18). -/
def State.inBounds (s : State) (off n : Nat) : Bool :=
  decide (off + n + Config.minLength ≤ s.hdrLen.toNat)

/-- `LE_n`: the little-endian value of bytes from the lowest address up (R14). -/
def leNat : List Byte → Nat
  | [] => 0
  | b :: bs => b.toNat + 256 * leNat bs

/-- `zext_32(LE_n(...))` (R11, R14). -/
def leWord (bs : List Byte) : Word := BitVec.ofNat 32 (leNat bs)

/-- The header length `LE_2(h[3], h[4])` (R65, R144). -/
def leHalf (bs : List Byte) : Half := BitVec.ofNat 16 (leNat bs)

/-- HDR_ID as a word: TAG [7:0], MAJOR [15:8], MINOR [23:16], the rest 0 (R32). -/
def HdrId.word (h : HdrId) : Word := 0#8 ++ h.minor ++ h.major ++ h.tag

/-- HDR_ID from the header bytes: TAG = h[0], MAJOR = h[1], MINOR = h[2] (R144). -/
def HdrId.ofBytes (h : List Byte) : HdrId :=
  { tag := h.getD 0 0, major := h.getD 1 0, minor := h.getD 2 0 }

end Sys2Proof.Machine
end

