-- ==== Sys2Proof/Machine/Ops.lean ====
section
/-! DEFINITION. The named operations over the state: the event history, the memory primitives (R13),
`finish` (R15), the register port (R190 to R194) with its bus error (R192), and hardware reset (R240).
The block takes no traps (R210, R221): `finish` with a code and the bus error are all there is. -/

namespace Sys2Proof.Machine

/-! ### Sequencing (R17) -/

/-- Go on with a part of a command after another. -/
def Reply.bind {α β : Type} (x : Reply α) (k : α → State → Reply β) : Reply β :=
  match x with
  | .done v s => k v s
  | .fault f => .fault f
  | .refused r => .refused r

/-- Go on to the end of a command after a part of it. -/
def Reply.andThen {α : Type} (x : Reply α) (k : α → State → Result) : Result :=
  match x with
  | .done v s => k v s
  | .fault f => .fault f
  | .refused r => .refused r

/-! ### The history (R42) -/

/-- Record an event. -/
def State.log (s : State) (e : Event) : State := { s with history := e :: s.history }

/-- The recorded events in the order they happened (R42(b)). -/
def State.events (s : State) : List Event := s.history.reverse

/-! ### Single registers (R12) -/

/-- `CRC <- v` (R12). -/
def State.withCrc (s : State) (v : Word) : State := { s with crcState := v }

/-- `x[RDATA] <- v` (R12). -/
def State.withRdata (s : State) (v : Word) : State := { s with rdata := v }

/-- `x[STATUS].VRESULT <- v` (R12, R25). -/
def State.withVresult (s : State) (v : VResult) : State := { s with vresult := v }

/-! ### Storage and destination (R13) -/

/-- `StorageAdmits(a)`: the storage lists the address (R9; log 5). -/
def State.storageAdmits (s : State) (a : Addr) : Bool := (s.storage.get a.toNat).isSome

/-- `DestAdmits(a)` (R9). -/
def State.destAdmits (s : State) (a : Addr) : Bool :=
  s.platform.destAdmits.any fun r => decide (r.lo.toNat ≤ a.toNat) && decide (a.toNat ≤ r.hi.toNat)

/-- Would a destination write at `a` change the storage or land in the storage region?  Only where the
two spaces are one memory (R81, R255; log 8). -/
def State.hitsStorage (s : State) (a : Addr) : Bool :=
  s.platform.shared &&
    (s.storageAdmits a || decide ((a - s.regionBase).toNat < s.regionSize.toNat))

/-- `MemRead(a, 1)`: one storage byte, or stuck (R13, R70).  No side effect but the record (R71). -/
def memRead (a : Addr) (s : State) : Reply Byte :=
  match s.storage.get a.toNat with
  | some b => .done b (s.log (.storageRead a b))
  | none => .fault (.storageStuck a s)

/-- The state after an admitted destination write, recorded (R13, R42). -/
def State.destWritten (s : State) (a : Addr) (v : Byte) : State :=
  { s with dest := s.dest.put a.toNat v, history := .destWrite a v :: s.history }

/-- `MemWrite(a, 1, v)`: one destination byte, or stuck (R13, R70); refused where it would change the
storage (R81, R255). -/
def memWrite (a : Addr) (v : Byte) (s : State) : Reply Unit :=
  if s.destAdmits a = false then .fault (.destStuck a s)
  else if s.hitsStorage a then .refused (.destOverlapsStorage a s)
  else .done () (s.destWritten a v)

/-- `n` bytes from `a` upwards, one at a time (R13, R61, R73). -/
def readBytes (a : Addr) : Nat → State → Reply (List Byte)
  | 0, s => .done [] s
  | n + 1, s =>
    (memRead a s).bind fun b s1 =>
      (readBytes (a + 1#32) n s1).bind fun bs s2 => .done (b :: bs) s2

/-- `n` bytes copied from storage at `src` to the destination at `dst`, each written right after it is
read (R172). -/
def copyBytes (src dst : Addr) : Nat → State → Reply Unit
  | 0, s => .done () s
  | n + 1, s =>
    (memRead src s).bind fun b s1 =>
      (memWrite dst b s1).bind fun _ s2 => copyBytes (src + 1#32) (dst + 1#32) n s2

/-! ### The end of a command (R15) -/

/-- The state at the end of a command: CERR holds the code and the CMD write completes (R15, R27). -/
def State.complete (s : State) (c : CErr) : State := { s with cerr := c, response := .writeDone }

/-- `finish(code)` (R15). -/
def finish (c : CErr) (s : State) : Result := .next (s.complete c)

/-! ### The register port (R190 to R194) -/

/-- What a read of a register gives (R191): CMD reads 0 (R197), STATUS, CRC_RESULT and the header words
are computed (R25, R29, R32), a 16-bit register reads zero-extended (R33, R36, R37). -/
def State.readReg (s : State) : Reg → Word
  | .cmd => 0
  | .status => s.statusWord
  | .crcState => s.crcState
  | .crcResult => ~~~ s.crcState
  | .regionBase => s.regionBase
  | .regionSize => s.regionSize
  | .hdrId => s.hdrId.word
  | .hdrLen => s.hdrLen.setWidth 32
  | .expected => s.expected
  | .computed => s.computed
  | .argOffset => s.argOffset.setWidth 32
  | .argSize => s.argSize.setWidth 32
  | .argDest => s.argDest
  | .rdata => s.rdata

/-- What a write leaves in the registers (R193, R194): a read-only register ignores it; ARG_OFFSET and
ARG_SIZE keep bits [15:0]; CMD holds no state (R24). -/
def State.writeReg (s : State) (v : Word) : Reg → State
  | .cmd => s
  | .status => s
  | .crcState => s
  | .crcResult => s
  | .regionBase => { s with regionBase := v }
  | .regionSize => { s with regionSize := v }
  | .hdrId => s
  | .hdrLen => s
  | .expected => s
  | .computed => s
  | .argOffset => { s with argOffset := v.setWidth 16 }
  | .argSize => { s with argSize := v.setWidth 16 }
  | .argDest => { s with argDest := v }
  | .rdata => s

/-- The state after the port has answered a read with `v` and recorded it (R42, R191). -/
def State.answered (s : State) (off : Nat) (v : Word) : State :=
  { s with response := .readData v, history := .regRead off v :: s.history }

/-- The state after the port has accepted a write of `v` and recorded it (R42, R193). -/
def State.accepted (s : State) (off : Nat) (v : Word) : State :=
  { s with response := .writeDone, history := .regWrite off v :: s.history }

/-- RD.<REG>: the register's value, and no side effect on any register (R191, R198). -/
def portRead (r : Reg) (s : State) : Result := .next (s.answered r.offset (s.readReg r))

/-- WR.<REG> of a register other than CMD (R193, R194). -/
def portWrite (r : Reg) (v : Word) (s : State) : Result :=
  .next ((s.writeReg v r).accepted r.offset v)

/-- The state after SLVERR to a read: `busFault` is set, no register changes, and the data returned is
a free value (R192; logs 10 and 11). -/
def State.readErrored (s : State) (off : Nat) (v : Word) : State :=
  { s with
    busFault := true
    response := .readError v
    history := .regRead off v :: s.history
    freeCount := s.freeCount + 1 }

/-- The state after SLVERR to a write: `busFault` is set, nothing is written, no command is issued
(R192; log 10). -/
def State.writeErrored (s : State) (off : Nat) (v : Word) : State :=
  { s with
    busFault := true
    response := .writeError
    history := .regWrite off v :: s.history }

/-- SLVERR to a read (R192). -/
def busErrorRead (off : Nat) (s : State) : Result :=
  .next (s.readErrored off (Config.busErrorData s.freeCount))

/-- SLVERR to a write (R192). -/
def busErrorWrite (off : Nat) (v : Word) (s : State) : Result := .next (s.writeErrored off v)

/-- SLVERR in either direction (R192). -/
def busError (off : Nat) (op : Transfer) (s : State) : Result :=
  match op with
  | .read => busErrorRead off s
  | .write v => busErrorWrite off v s

/-! ### Hardware reset (R240, R241) -/

/-- Hardware reset: every register takes the value of R240's table.  The platform's memories, the
history, the host's queue and `busFault` (cleared only by a new run, R240) stay (log 16). -/
def State.hardwareReset (s : State) : State :=
  { s with
    vresult := .none
    cerr := .none
    crcState := Config.crcInit
    regionBase := 0
    regionSize := 0
    hdrId := { tag := 0, major := 0, minor := 0 }
    hdrLen := 0
    expected := 0
    computed := 0
    argOffset := 0
    argSize := 0
    argDest := 0
    rdata := 0
    response := .none }

end Sys2Proof.Machine
end

