-- ==== Sys2Proof/Machine/FieldAccess.lean ====
section
/-! DEFINITION. READ_FIELD and READ_SCALAR.B/.H/.W (R170 to R181). -/

namespace Sys2Proof.Machine

/-- READ_FIELD (R172): the checks in the order of R177, then the byte copy. -/
def execReadField (s : State) : Result :=
  if s.valid = false then finish .notValidated s
  else if s.inBounds s.argOff s.argLen = false then finish .outOfBounds s
  else
    (copyBytes (s.fieldAddr s.argOff) s.argDest s.argLen s).andThen fun _ s1 => finish .none s1

/-- `ReadScalar(n)`, the shared body (R173): the checks in the order of R177, then the `n` bytes,
little-endian and zero-extended, into RDATA. -/
def readScalar (n : Nat) (s : State) : Result :=
  if s.valid = false then finish .notValidated s
  else if s.inBounds s.argOff n = false then finish .outOfBounds s
  else
    (readBytes (s.fieldAddr s.argOff) n s).andThen fun bs s1 =>
      finish .none (s1.withRdata (leWord bs))

/-- READ_SCALAR.B: one byte (R174). -/
def execReadScalarB (s : State) : Result := readScalar 1 s

/-- READ_SCALAR.H: two bytes (R175). -/
def execReadScalarH (s : State) : Result := readScalar 2 s

/-- READ_SCALAR.W: four bytes (R176). -/
def execReadScalarW (s : State) : Result := readScalar 4 s

end Sys2Proof.Machine
end

