-- ==== Sys2Proof/Machine/Crc.lean ====
section
/-! DEFINITION. The CRC-32 engine: the functions of R120, R121 and R125, and the commands CRC_RESET,
CRC_UPDATE and CRC_FINALIZE (R122 to R124). -/

namespace Sys2Proof.Machine

/-- One iteration of R120 on the register: the carry is bit 0 of (byte XOR register), the register
shifts right by one, and the polynomial is XORed in when the carry is 1. -/
def crcShift (r : Word) (b : Byte) : Word :=
  if (b ^^^ r.setWidth 8).getLsbD 0 then (r >>> 1) ^^^ Config.crcPoly else r >>> 1

/-- `n` iterations of R120; the byte shifts right by one after each. -/
def crcLoop : Nat → Word → Byte → Word
  | 0, r, _ => r
  | n + 1, r, b => crcLoop n (crcShift r b) (b >>> 1)

/-- `crc_update_byte(r, b)` (R120). -/
def crcUpdateByte (r : Word) (b : Byte) : Word := crcLoop 8 r b

/-- `crc_finalize(r)` (R121). -/
def crcFinalize (r : Word) : Word := ~~~ r

/-- The running register after a byte sequence (R125). -/
def crcRun (r : Word) (bs : List Byte) : Word := bs.foldl crcUpdateByte r

/-- `CRC(s)` (R125). -/
def crcOf (bs : List Byte) : Word := crcFinalize (crcRun Config.crcInit bs)

/-- The CRC pass over `n` bytes from `a` upwards, on CRC_STATE itself (R146). -/
def crcPass (a : Addr) : Nat → State → Reply Unit
  | 0, s => .done () s
  | n + 1, s =>
    (memRead a s).bind fun b s1 =>
      crcPass (a + 1#32) n (s1.withCrc (crcUpdateByte s1.crcState b))

/-- CRC_RESET (R122). -/
def execCrcReset (s : State) : Result := finish .none (s.withCrc Config.crcInit)

/-- CRC_UPDATE (R123). -/
def execCrcUpdate (b : Byte) (s : State) : Result :=
  finish .none (s.withCrc (crcUpdateByte s.crcState b))

/-- CRC_FINALIZE (R124). -/
def execCrcFinalize (s : State) : Result := finish .none (s.withRdata (crcFinalize s.crcState))

end Sys2Proof.Machine
end

