-- ==== Sys2Proof/Machine/Validator.lean ====
section
/-! DEFINITION. VALIDATE, the header parser and checksum validator (R140 to R158). -/

namespace Sys2Proof.Machine

/-- Step (1): discard the previous result (R142). -/
def State.clearView (s : State) : State :=
  { s with
    vresult := .none
    hdrId := { tag := 0, major := 0, minor := 0 }
    hdrLen := 0
    expected := 0
    computed := 0 }

/-- Step (3): latch the header bytes `h` (R144). -/
def State.latchHeader (s : State) (h : List Byte) : State :=
  { s with hdrId := HdrId.ofBytes h, hdrLen := leHalf (h.drop 3) }

/-- Step (4): is the latched length refused?  `L < 9` or `L > REGION_SIZE`, as unsigned integers
(R145). -/
def State.lengthBad (s : State) : Bool :=
  decide (s.hdrLen.toNat < Config.minLength) || decide (s.regionSize.toNat < s.hdrLen.toNat)

/-- Step (6): EXPECTED holds the stored checksum and COMPUTED the finalized CRC (R147). -/
def State.latchChecksums (s : State) (c : List Byte) : State :=
  { s with expected := leWord c, computed := crcFinalize s.crcState }

/-- Step (7): the verdict on the latched values, first match wins (R148 to R150, R153). -/
def State.verdict (s : State) : VResult :=
  if s.computed ≠ s.expected then .checksumMismatch
  else if s.hdrId.tag ≠ s.platform.tagSentinel then .headerNotFound
  else .ok

/-- The end of VALIDATE: VRESULT holds the outcome and CERR is NONE (R150). -/
def finishValidate (v : VResult) (s : State) : Result := finish .none (s.withVresult v)

/-- Steps (5) to (7), after the length check. -/
def validateBody (s : State) : Result :=
  (crcPass s.regionBase (s.hdrLen.toNat - Config.checksumSize)
      (s.withCrc Config.crcInit)).andThen fun _ s1 =>
    (readBytes (s1.blockAddr (s1.hdrLen.toNat - Config.checksumSize)) Config.checksumSize s1).andThen
      fun c s2 =>
        finishValidate (s2.latchChecksums c).verdict (s2.latchChecksums c)

/-- VALIDATE: steps (1) to (4), then the rest (R141). -/
def execValidate (s : State) : Result :=
  if s.regionSize.toNat < Config.hdrSize then finishValidate .lengthInvalid s.clearView
  else
    (readBytes s.regionBase Config.hdrSize s.clearView).andThen fun h s1 =>
      if (s1.latchHeader h).lengthBad then finishValidate .lengthInvalid (s1.latchHeader h)
      else validateBody (s1.latchHeader h)

end Sys2Proof.Machine
end

