-- ==== Sys2Proof/Machine/CommandIssue.lean ====
section
/-! DEFINITION. The illegal command word (R196) and command issue, the write to CMD (R195). -/

namespace Sys2Proof.Machine

/-- ILLEGAL_CMD: `finish(ILLEGAL_CMD)` whatever the word (R196). -/
def execIllegalCmd (_w : Word) (s : State) : Result := finish .illegalCmd s

/-- The command that a word names (R195). -/
def execCommand (c : Command) (s : State) : Result :=
  match c with
  | .crcReset => execCrcReset s
  | .crcUpdate b => execCrcUpdate b s
  | .crcFinalize => execCrcFinalize s
  | .validate => execValidate s
  | .readField => execReadField s
  | .readScalarB => execReadScalarB s
  | .readScalarH => execReadScalarH s
  | .readScalarW => execReadScalarW s
  | .illegal w => execIllegalCmd w s

/-- WR.CMD: the write is recorded when it is issued, then the command runs (R195; logs 3 and 13). -/
def execWrCmd (w : Word) (s : State) : Result :=
  execCommand (decodeCommand w) (s.log (.regWrite Reg.cmd.offset w))

end Sys2Proof.Machine
end

