-- ==== Sys2Proof/Machine/RegisterAccess.lean ====
section
/-! DEFINITION. The register accesses of the host: RD.<REG> (R191, R197, R198), WR.<REG> (R193, R194)
and the reserved offsets (R192).  A write to CMD, which issues a command, is in CommandIssue.lean. -/

namespace Sys2Proof.Machine

/-- RD.CMD (R197). -/
def execRdCmd (s : State) : Result := portRead .cmd s

/-- RD.STATUS (R191). -/
def execRdStatus (s : State) : Result := portRead .status s

/-- RD.CRC_STATE (R191). -/
def execRdCrcState (s : State) : Result := portRead .crcState s

/-- RD.CRC_RESULT (R191). -/
def execRdCrcResult (s : State) : Result := portRead .crcResult s

/-- RD.REGION_BASE (R191). -/
def execRdRegionBase (s : State) : Result := portRead .regionBase s

/-- RD.REGION_SIZE (R191). -/
def execRdRegionSize (s : State) : Result := portRead .regionSize s

/-- RD.HDR_ID (R191). -/
def execRdHdrId (s : State) : Result := portRead .hdrId s

/-- RD.HDR_LEN (R191). -/
def execRdHdrLen (s : State) : Result := portRead .hdrLen s

/-- RD.EXPECTED (R191). -/
def execRdExpected (s : State) : Result := portRead .expected s

/-- RD.COMPUTED (R191). -/
def execRdComputed (s : State) : Result := portRead .computed s

/-- RD.ARG_OFFSET (R191). -/
def execRdArgOffset (s : State) : Result := portRead .argOffset s

/-- RD.ARG_SIZE (R191). -/
def execRdArgSize (s : State) : Result := portRead .argSize s

/-- RD.ARG_DEST (R191). -/
def execRdArgDest (s : State) : Result := portRead .argDest s

/-- RD.RDATA (R191). -/
def execRdRdata (s : State) : Result := portRead .rdata s

/-- WR.STATUS (R194): read-only: completes, ignored. -/
def execWrStatus (v : Word) (s : State) : Result := portWrite .status v s

/-- WR.CRC_STATE (R194): read-only: completes, ignored. -/
def execWrCrcState (v : Word) (s : State) : Result := portWrite .crcState v s

/-- WR.CRC_RESULT (R194): read-only: completes, ignored. -/
def execWrCrcResult (v : Word) (s : State) : Result := portWrite .crcResult v s

/-- WR.REGION_BASE (R193): the register takes the value. -/
def execWrRegionBase (v : Word) (s : State) : Result := portWrite .regionBase v s

/-- WR.REGION_SIZE (R193): the register takes the value. -/
def execWrRegionSize (v : Word) (s : State) : Result := portWrite .regionSize v s

/-- WR.HDR_ID (R194): read-only: completes, ignored. -/
def execWrHdrId (v : Word) (s : State) : Result := portWrite .hdrId v s

/-- WR.HDR_LEN (R194): read-only: completes, ignored. -/
def execWrHdrLen (v : Word) (s : State) : Result := portWrite .hdrLen v s

/-- WR.EXPECTED (R194): read-only: completes, ignored. -/
def execWrExpected (v : Word) (s : State) : Result := portWrite .expected v s

/-- WR.COMPUTED (R194): read-only: completes, ignored. -/
def execWrComputed (v : Word) (s : State) : Result := portWrite .computed v s

/-- WR.ARG_OFFSET (R193): the register takes the value. -/
def execWrArgOffset (v : Word) (s : State) : Result := portWrite .argOffset v s

/-- WR.ARG_SIZE (R193): the register takes the value. -/
def execWrArgSize (v : Word) (s : State) : Result := portWrite .argSize v s

/-- WR.ARG_DEST (R193): the register takes the value. -/
def execWrArgDest (v : Word) (s : State) : Result := portWrite .argDest v s

/-- WR.RDATA (R194): read-only: completes, ignored. -/
def execWrRdata (v : Word) (s : State) : Result := portWrite .rdata v s

/-- A read of the reserved offset 0x38: SLVERR (R192). -/
def execSlverr38R (s : State) : Result := busErrorRead 0x38 s

/-- A write to the reserved offset 0x38: SLVERR, nothing is written (R192). -/
def execSlverr38W (v : Word) (s : State) : Result := busErrorWrite 0x38 v s

/-- A read of the reserved offset 0x3C: SLVERR (R192). -/
def execSlverr3cR (s : State) : Result := busErrorRead 0x3C s

/-- A write to the reserved offset 0x3C: SLVERR, nothing is written (R192). -/
def execSlverr3cW (v : Word) (s : State) : Result := busErrorWrite 0x3C v s

end Sys2Proof.Machine
end

