-- ==== Sys2Proof/Machine/Dispatch.lean ====
section
/-! DEFINITION. The meaning of an instruction: one arm for each constructor of `Instr`. -/

namespace Sys2Proof.Machine

def exec (i : Instr) (s : State) : Host.Outcome State Fault Refusal :=
  match i with
  | .crcReset => Sys2Proof.Machine.execCrcReset s
  | .crcUpdate b => Sys2Proof.Machine.execCrcUpdate b s
  | .crcFinalize => Sys2Proof.Machine.execCrcFinalize s
  | .validate => Sys2Proof.Machine.execValidate s
  | .readField => Sys2Proof.Machine.execReadField s
  | .readScalarB => Sys2Proof.Machine.execReadScalarB s
  | .readScalarH => Sys2Proof.Machine.execReadScalarH s
  | .readScalarW => Sys2Proof.Machine.execReadScalarW s
  | .illegalCmd w => Sys2Proof.Machine.execIllegalCmd w s
  | .rdCmd => Sys2Proof.Machine.execRdCmd s
  | .wrCmd w => Sys2Proof.Machine.execWrCmd w s
  | .rdStatus => Sys2Proof.Machine.execRdStatus s
  | .wrStatus v => Sys2Proof.Machine.execWrStatus v s
  | .rdCrcState => Sys2Proof.Machine.execRdCrcState s
  | .wrCrcState v => Sys2Proof.Machine.execWrCrcState v s
  | .rdCrcResult => Sys2Proof.Machine.execRdCrcResult s
  | .wrCrcResult v => Sys2Proof.Machine.execWrCrcResult v s
  | .rdRegionBase => Sys2Proof.Machine.execRdRegionBase s
  | .wrRegionBase v => Sys2Proof.Machine.execWrRegionBase v s
  | .rdRegionSize => Sys2Proof.Machine.execRdRegionSize s
  | .wrRegionSize v => Sys2Proof.Machine.execWrRegionSize v s
  | .rdHdrId => Sys2Proof.Machine.execRdHdrId s
  | .wrHdrId v => Sys2Proof.Machine.execWrHdrId v s
  | .rdHdrLen => Sys2Proof.Machine.execRdHdrLen s
  | .wrHdrLen v => Sys2Proof.Machine.execWrHdrLen v s
  | .rdExpected => Sys2Proof.Machine.execRdExpected s
  | .wrExpected v => Sys2Proof.Machine.execWrExpected v s
  | .rdComputed => Sys2Proof.Machine.execRdComputed s
  | .wrComputed v => Sys2Proof.Machine.execWrComputed v s
  | .rdArgOffset => Sys2Proof.Machine.execRdArgOffset s
  | .wrArgOffset v => Sys2Proof.Machine.execWrArgOffset v s
  | .rdArgSize => Sys2Proof.Machine.execRdArgSize s
  | .wrArgSize v => Sys2Proof.Machine.execWrArgSize v s
  | .rdArgDest => Sys2Proof.Machine.execRdArgDest s
  | .wrArgDest v => Sys2Proof.Machine.execWrArgDest v s
  | .rdRdata => Sys2Proof.Machine.execRdRdata s
  | .wrRdata v => Sys2Proof.Machine.execWrRdata v s
  | .slverr38R => Sys2Proof.Machine.execSlverr38R s
  | .slverr38W v => Sys2Proof.Machine.execSlverr38W v s
  | .slverr3cR => Sys2Proof.Machine.execSlverr3cR s
  | .slverr3cW v => Sys2Proof.Machine.execSlverr3cW v s

end Sys2Proof.Machine
end

