-- ==== Sys2Proof/Machine/Port.lean ====
section
/-! DEFINITION. How the block serves one event of the host: a register access (R190 to R195), a
hardware reset, or a reset in the middle of a command (R241). -/

namespace Sys2Proof.Machine

/-- One register access: its instruction runs; a bad width or offset is answered with SLVERR (R192); an
access outside the window is not the block's and changes nothing (log 14). -/
def serveAccess (a : Access) (s : State) : Result :=
  match decodeAccess s.platform.regBase a with
  | .instr i => exec i s
  | .notSelected => .next s
  | .badWidth => busError (windowOffset s.platform.regBase a.addr) a.op s
  | .misaligned => busError (windowOffset s.platform.regBase a.addr) a.op s

/-- The destination after the recorded destination writes, in the order given. -/
def replayWrites : List Event → Memory → Memory
  | [], m => m
  | .destWrite a b :: es, m => replayWrites es (m.put a.toNat b)
  | .storageRead _ _ :: es, m => replayWrites es m
  | .regRead _ _ :: es, m => replayWrites es m
  | .regWrite _ _ :: es, m => replayWrites es m

/-- The events of `t` since `s`, oldest first. -/
def eventsSince (s t : State) : List Event :=
  (t.history.take (t.history.length - s.history.length)).reverse

/-- Reset asserted after the first `k` memory accesses of a command that began in `s` and would have
gone as far as `t`: those accesses stay done, every register takes its reset value (R241; log 17). -/
def abortAfter (k : Nat) (s t : State) : State :=
  State.hardwareReset
    { s with
      dest := replayWrites ((eventsSince s t).take k) s.dest
      history := ((eventsSince s t).take k).reverse ++ s.history }

/-- A CMD write of `w` during which reset is asserted after `k` memory accesses (R241; log 17).  A
command that is stuck is still in progress, so reset ends it too.  Where the command would change the
storage within its first `k` accesses it is refused, as without the reset (log 8). -/
def serveResetDuring (w : Word) (k : Nat) (s : State) : Result :=
  let s0 := s.log (.regWrite Reg.cmd.offset w)
  match execCommand (decodeCommand w) s0 with
  | .next t => .next (abortAfter k s0 t)
  | .fault f => .next (abortAfter k s0 f.reached)
  | .refused r =>
    match r.reached with
    | none => .refused r
    | some t => if (eventsSince s0 t).length < k then .refused r else .next (abortAfter k s0 t)

/-- One event of the host. -/
def serve (e : HostEvent) (s : State) : Result :=
  match e with
  | .access a => serveAccess a s
  | .reset => .next s.hardwareReset
  | .resetDuring w k => serveResetDuring w k s

/-- The event that brings a table word to the block (log 2). -/
def fetchEvent (regBase : Addr) (nbits w : Nat) : HostEvent :=
  .access ((tableIssue regBase nbits w).toAccess regBase)

end Sys2Proof.Machine
end

