-- ==== Sys2Proof/Machine/Step.lean ====
section
/-! DEFINITION. One step: the block serves the host's oldest event.  With none, nothing happens: the
block executes nothing until the host writes CMD (R48, R242; log 1). -/

namespace Sys2Proof.Machine

/-- One step of the machine. -/
def step (s : State) : Host.Outcome State Fault Refusal :=
  match s.pending with
  | [] => .next s
  | e :: rest => serve e { s with pending := rest }

/-- The state in which the host's next event is the access that a table word stands for: a command
word arrives as a write to CMD, a register row as its access (logs 1 and 2). -/
def State.withFetchWord (s : State) (nbits w : Nat) : State :=
  { s with pending := fetchEvent s.platform.regBase nbits w :: s.pending }

end Sys2Proof.Machine
end

