-- ==== Sys2Proof/Machine/Assembler.lean ====
section
/-! DEFINITION. The host-side assembly (R101) and the pseudo-instructions (R102): each line is a
sequence of register accesses. -/

namespace Sys2Proof.Machine

/-- A pseudo-instruction's expansion into the lines of R101 (R102); a line of R101 is itself. -/
def asmExpand : Asm → List Asm
  | .crcBytes bs => bs.map .crcUpdate
  | .pbRegion base size => [.wr .regionBase base, .wr .regionSize size]
  | .pbField off size dest => [.wr .argOffset off, .wr .argSize size, .wr .argDest dest, .pbReadField]
  | .pbScalarB off => [.wr .argOffset off, .pbReadsB]
  | .pbScalarH off => [.wr .argOffset off, .pbReadsH]
  | .pbScalarW off => [.wr .argOffset off, .pbReadsW]
  | .crcOf bs => .crcReset :: bs.map .crcUpdate ++ [.crcFinal]
  | .crcReset => [.crcReset]
  | .crcUpdate b => [.crcUpdate b]
  | .crcFinal => [.crcFinal]
  | .pbValidate => [.pbValidate]
  | .pbReadField => [.pbReadField]
  | .pbReadsB => [.pbReadsB]
  | .pbReadsH => [.pbReadsH]
  | .pbReadsW => [.pbReadsW]
  | .wr r v => [.wr r v]
  | .rd r => [.rd r]
  | .cmd v => [.cmd v]

/-- The instruction whose access a line of R101 is; a pseudo-instruction has none of its own (R102). -/
def asmInstr : Asm → Option Instr
  | .crcReset => some (.wrCmd (encodeCommand .crcReset))
  | .crcUpdate b => some (.wrCmd (encodeCommand (.crcUpdate b)))
  | .crcFinal => some (.wrCmd (encodeCommand .crcFinalize))
  | .pbValidate => some (.wrCmd (encodeCommand .validate))
  | .pbReadField => some (.wrCmd (encodeCommand .readField))
  | .pbReadsB => some (.wrCmd (encodeCommand .readScalarB))
  | .pbReadsH => some (.wrCmd (encodeCommand .readScalarH))
  | .pbReadsW => some (.wrCmd (encodeCommand .readScalarW))
  | .wr r v => some (r.wrInstr v)
  | .rd r => some r.rdInstr
  | .cmd v => some (.wrCmd v)
  | .crcBytes _ => none
  | .pbRegion _ _ => none
  | .pbField _ _ _ => none
  | .pbScalarB _ => none
  | .pbScalarH _ => none
  | .pbScalarW _ => none
  | .crcOf _ => none

/-- The register accesses of a line, in order. -/
def asmAccesses (regBase : Addr) (l : Asm) : List Access :=
  (asmExpand l).filterMap fun c => (asmInstr c).map fun i => (encode regBase i).toAccess regBase

/-- The state with a program's accesses queued after what the host already has pending (log 1). -/
def State.loadProgram (s : State) (ls : List Asm) : State :=
  { s with pending := s.pending ++ (ls.flatMap (asmAccesses s.platform.regBase)).map .access }

end Sys2Proof.Machine
end

