-- ==== Sys2Proof/Safety.lean ====
section
/-! DEFINITION. What claims call a safe run and a consistent state: no bus fault (R192 treats such a run
as faulted), the memories in canonical form, the latched view agreeing with VRESULT (R142 to R150,
R170), and the history agreeing with the storage and the platform (R40, R70, R71). -/

namespace Sys2Proof
open Machine

/-- The run has not faulted (R42, R192). -/
def Unfaulted (s : State) : Prop := s.busFault = false

/-- The latched registers agree with VRESULT: what each verdict of VALIDATE leaves (R142 to R150,
R211). -/
def ViewConsistent (s : State) : Prop :=
  match s.vresult with
  | .none => s.hdrId = { tag := 0, major := 0, minor := 0 } ∧ s.hdrLen = 0 ∧ s.expected = 0 ∧ s.computed = 0
  | .ok => 9 ≤ s.hdrLen.toNat ∧ s.computed = s.expected ∧ s.hdrId.tag = s.platform.tagSentinel
  | .checksumMismatch => 9 ≤ s.hdrLen.toNat ∧ s.computed ≠ s.expected
  | .headerNotFound => 9 ≤ s.hdrLen.toNat ∧ s.computed = s.expected ∧ s.hdrId.tag ≠ s.platform.tagSentinel
  | .lengthInvalid => s.expected = 0 ∧ s.computed = 0

/-- A recorded access agrees with the platform: a storage read gave the storage's byte (R13, R71), a
destination write was at an admitted address (R13, R70). -/
def EventFaithful (s : State) : Event → Prop
  | .storageRead a b => s.storage.get a.toNat = some b
  | .destWrite a _ => s.destAdmits a = true
  | .regRead _ _ => True
  | .regWrite _ _ => True

/-- The storage answers with the bytes `bs` at consecutive addresses from `a`, modulo 2^32 (R13, R73). -/
def Answers (m : Memory) (a : Addr) (bs : List Byte) : Prop :=
  ∀ i b, bs[i]? = some b → m.get (a + BitVec.ofNat 32 i).toNat = some b

/-- The `n` destination addresses from `a`, modulo 2^32, accept a write that changes no storage (R13,
R70, R73, R81). -/
def Accepts (s : State) (a : Addr) (n : Nat) : Prop :=
  ∀ i, i < n → s.destAdmits (a + BitVec.ofNat 32 i) = true ∧ s.hitsStorage (a + BitVec.ofNat 32 i) = false

/-- The events of reading `bs` from `a` upwards, in order (R42(b)). -/
def readEvents : Addr → List Byte → List Event
  | _, [] => []
  | a, b :: bs => .storageRead a b :: readEvents (a + 1#32) bs

/-- The events of copying `bs` from `src` upwards to `dst` upwards: each write right after its read
(R42(b), R172). -/
def copyEvents : Addr → Addr → List Byte → List Event
  | _, _, [] => []
  | src, dst, b :: bs => .storageRead src b :: .destWrite dst b :: copyEvents (src + 1#32) (dst + 1#32) bs

/-- Is the event a storage read (R42(b))? -/
def isStorageRead : Event → Bool
  | .storageRead _ _ => true
  | .destWrite _ _ => false
  | .regRead _ _ => false
  | .regWrite _ _ => false

/-- Is the event a destination write (R42(b))? -/
def isDestWrite : Event → Bool
  | .storageRead _ _ => false
  | .destWrite _ _ => true
  | .regRead _ _ => false
  | .regWrite _ _ => false

/-- The state with the events `es`, in order, added to its history. -/
def withEvents (s : State) (es : List Event) : State := { s with history := es.reverse ++ s.history }

/-- A run of instructions one after another, ended by the first that does not answer a next state. -/
def execAll : List Instr → State → Result
  | [], s => .next s
  | i :: is, s =>
    match exec i s with
    | .next t => execAll is t
    | .fault f => .fault f
    | .refused r => .refused r

/-- `t` is the next state of an outcome, or the state a stuck or refused command reached. -/
def Reaches (r : Result) (t : State) : Prop :=
  r = .next t ∨ (∃ f, r = .fault f ∧ f.reached = t) ∨ (∃ q, r = .refused q ∧ q.reached = some t)

/-- Every storage and destination access that a command could make in `s` is admitted: VALIDATE's below
REGION_SIZE, the field commands' inside the validated block, READ_FIELD's destination (R13, R75). -/
def AccessesAdmitted (s : State) : Prop :=
  (∀ k, k < s.regionSize.toNat → k < 2 ^ 16 → s.storageAdmits (s.blockAddr k) = true) ∧
  (∀ k, k < s.hdrLen.toNat → s.storageAdmits (s.blockAddr k) = true) ∧
  Accepts s s.argDest s.argSize.toNat

/-- The invariant of the machine. -/
structure Consistent (s : State) : Prop where
  storage_wf : s.storage.wf
  dest_wf : s.dest.wf
  view : ViewConsistent s
  history : ∀ e ∈ s.history, EventFaithful s e

end Sys2Proof
end

