-- ==== Sys2Proof/Certificates/Slice0/Obligations.lean ====
section
/-! DEFINITION. The statements for the provers, in the order of OBLIGATIONS.json: encoding, the CRC
engine, VALIDATE, the field commands, the register port, and the whole machine.  Where a statement fixes
`response`, it says what the port answered (R15, R191 to R195), held in a field of the model's own
(log 12); where it fixes `history`, it says what R42(b) records, newest first, a CMD write before the
accesses of its command (log 13). -/

open Sys2Proof Sys2Proof.Machine

/-! ### Encoding -/

/-- Every well-formed instruction is decoded from its encoding, wherever the window stands. -/
def Obligations.DecodeOfEncodeIsTheInstruction : Prop :=
  ∀ (base : Addr) (i : Instr), i.wellFormed = true → decode base (encode base i) = .instr i

/-- Every command word is the encoding of what it decodes to, and that command is well-formed. -/
def Obligations.EncodeOfDecodeIsTheWord : Prop :=
  ∀ w : Word, encodeCommand (decodeCommand w) = w ∧ (decodeCommand w).wellFormed = true

/-- R98 with the map of R96: at most one row covers a word, a covered word decodes to its row's command,
and a word no row covers is ILLEGAL. -/
def Obligations.DecodeFollowsTheOpcodeMap : Prop :=
  ∀ w : Word,
    opcodeMap.countP (fun r => r.covers w) ≤ 1 ∧
    (w &&& 0xFFFFFFFF = 0x00000001 → decodeCommand w = .crcReset) ∧
    (w &&& 0xFFFF00FF = 0x00000002 → decodeCommand w = .crcUpdate (w.extractLsb' 8 8)) ∧
    (w &&& 0xFFFFFFFF = 0x00000003 → decodeCommand w = .crcFinalize) ∧
    (w &&& 0xFFFFFFFF = 0x00000004 → decodeCommand w = .validate) ∧
    (w &&& 0xFFFFFFFF = 0x00000005 → decodeCommand w = .readField) ∧
    (w &&& 0xFFFFFFFF = 0x00000006 → decodeCommand w = .readScalarB) ∧
    (w &&& 0xFFFFFFFF = 0x00010006 → decodeCommand w = .readScalarH) ∧
    (w &&& 0xFFFFFFFF = 0x00020006 → decodeCommand w = .readScalarW) ∧
    (legalWord w = false → decodeCommand w = .illegal w)

/-- R97: the illegal words are exactly those named, and every one of them, written to CMD, sets CERR to
ILLEGAL_CMD and changes no other register and no memory. -/
def Obligations.IllegalWordsOnlySetCerr : Prop :=
  ∀ w : Word,
    ((w.extractLsb' 0 4 = 0x0#4 ∨ 0x7#4 ≤ w.extractLsb' 0 4 ∨ w.extractLsb' 4 4 ≠ 0#4 ∨
        w.extractLsb' 18 14 ≠ 0#14 ∨ (w.extractLsb' 8 8 ≠ 0#8 ∧ w.extractLsb' 0 4 ≠ 0x2#4) ∨
        (w.extractLsb' 16 2 ≠ 0#2 ∧ w.extractLsb' 0 4 ≠ 0x6#4) ∨ w.extractLsb' 16 2 = 3#2) ↔
      decodeCommand w = .illegal w) ∧
    (decodeCommand w = .illegal w → ∀ s : State,
      exec (.wrCmd w) s =
        .next { s with
          cerr := .illegalCmd
          response := .writeDone
          history := .regWrite 0x00 w :: s.history })

/-- R196: ILLEGAL_CMD sets CERR to ILLEGAL_CMD (code 1) and changes nothing else of the machine. -/
def Obligations.IllegalCommandCompletes : Prop :=
  CErr.code .illegalCmd = 1 ∧
  ∀ (w : Word) (s : State),
    exec (.illegalCmd w) s = .next { s with cerr := .illegalCmd, response := .writeDone }

/-- A few words written out from R96 decode to the instructions they stand for. -/
def Obligations.SpecWordsDecode : Prop :=
  decodeCommand 0x00000001 = .crcReset ∧ decodeCommand 0x00003102 = .crcUpdate 0x31 ∧
  decodeCommand 0x00010006 = .readScalarH ∧ decodeCommand 0x00000106 = .illegal 0x00000106 ∧
  decodeAccess 0x40000000 { addr := 0x40000028, width := 32, op := .write 7 } =
    .instr (.wrArgOffset 7) ∧
  decodeAccess 0x40000000 { addr := 0x4000003C, width := 32, op := .read } = .instr .slverr3cR

/-- R100: the 32-bit access at each window offset is the operation of its row, and no access that is
narrow, misaligned or outside the window is one. -/
def Obligations.WindowOffsetsDecode : Prop :=
  ∀ (base : Addr) (v : Word),
    (∀ row ∈ [((0x00 : Addr), Instr.rdCmd, Instr.wrCmd v), (0x04, .rdStatus, .wrStatus v),
        (0x08, .rdCrcState, .wrCrcState v), (0x0C, .rdCrcResult, .wrCrcResult v),
        (0x10, .rdRegionBase, .wrRegionBase v), (0x14, .rdRegionSize, .wrRegionSize v),
        (0x18, .rdHdrId, .wrHdrId v), (0x1C, .rdHdrLen, .wrHdrLen v),
        (0x20, .rdExpected, .wrExpected v), (0x24, .rdComputed, .wrComputed v),
        (0x28, .rdArgOffset, .wrArgOffset v), (0x2C, .rdArgSize, .wrArgSize v),
        (0x30, .rdArgDest, .wrArgDest v), (0x34, .rdRdata, .wrRdata v),
        (0x38, .slverr38R, .slverr38W v), (0x3C, .slverr3cR, .slverr3cW v)],
      decodeAccess base { addr := base + row.1, width := 32, op := .read } = .instr row.2.1 ∧
      decodeAccess base { addr := base + row.1, width := 32, op := .write v } = .instr row.2.2) ∧
    ∀ (a : Access) (i : Instr), decodeAccess base a = .instr i →
      a.width = 32 ∧ (a.addr - base).toNat % 4 = 0 ∧ (a.addr - base).toNat < 0x40

/-- R101 and R102: the accesses of the assembly lines and of the pseudo-instructions. -/
def Obligations.AssemblyLinesExpand : Prop :=
  ∀ (base : Addr) (b : Byte) (bs : List Byte) (v off size dest : Word),
    asmAccesses base .crcReset = [⟨base, 32, .write 0x00000001⟩] ∧
    asmAccesses base (.crcUpdate b) = [⟨base, 32, .write (0x0000#16 ++ b ++ 0x02#8)⟩] ∧
    asmAccesses base .crcFinal = [⟨base, 32, .write 0x00000003⟩] ∧
    asmAccesses base .pbValidate = [⟨base, 32, .write 0x00000004⟩] ∧
    asmAccesses base .pbReadField = [⟨base, 32, .write 0x00000005⟩] ∧
    asmAccesses base .pbReadsB = [⟨base, 32, .write 0x00000006⟩] ∧
    asmAccesses base .pbReadsH = [⟨base, 32, .write 0x00010006⟩] ∧
    asmAccesses base .pbReadsW = [⟨base, 32, .write 0x00020006⟩] ∧
    asmAccesses base (.cmd v) = [⟨base, 32, .write v⟩] ∧
    (∀ r : Reg, asmAccesses base (.wr r v) = [⟨base + BitVec.ofNat 32 r.offset, 32, .write v⟩] ∧
      asmAccesses base (.rd r) = [⟨base + BitVec.ofNat 32 r.offset, 32, .read⟩]) ∧
    asmAccesses base (.crcBytes bs) = bs.flatMap (fun c => asmAccesses base (.crcUpdate c)) ∧
    asmAccesses base (.pbRegion v size) =
      [⟨base + 0x10, 32, .write v⟩, ⟨base + 0x14, 32, .write size⟩] ∧
    asmAccesses base (.pbField off size dest) =
      [⟨base + 0x28, 32, .write off⟩, ⟨base + 0x2C, 32, .write size⟩,
        ⟨base + 0x30, 32, .write dest⟩, ⟨base, 32, .write 0x00000005⟩] ∧
    asmAccesses base (.pbScalarB off) =
      [⟨base + 0x28, 32, .write off⟩, ⟨base, 32, .write 0x00000006⟩] ∧
    asmAccesses base (.pbScalarH off) =
      [⟨base + 0x28, 32, .write off⟩, ⟨base, 32, .write 0x00010006⟩] ∧
    asmAccesses base (.pbScalarW off) =
      [⟨base + 0x28, 32, .write off⟩, ⟨base, 32, .write 0x00020006⟩] ∧
    asmAccesses base (.crcOf bs) =
      asmAccesses base .crcReset ++ asmAccesses base (.crcBytes bs) ++ asmAccesses base .crcFinal

/-! ### The CRC engine -/

/-- R122: CRC_RESET, and that a word with OPC 1 and another nonzero bit does not reset. -/
def Obligations.CrcResetSetsAllOnes : Prop :=
  decodeCommand 0x00000001 = .crcReset ∧
  (∀ w : Word, w.extractLsb' 0 4 = 0x1#4 → w ≠ 0x00000001 →
    decodeCommand w = .illegal w ∧
    ∀ s : State, ∃ t, exec (.wrCmd w) s = .next t ∧ t.crcState = s.crcState ∧ t.cerr = .illegalCmd) ∧
  ∀ s : State,
    exec .crcReset s =
      .next { s with crcState := 0xFFFFFFFF, cerr := .none, response := .writeDone }

/-- R123: CRC_UPDATE consumes the byte of bits [15:8]; a word with OPC 2 and a nonzero WIDTH or reserved
bit is ILLEGAL_CMD and leaves CRC_STATE; a register of all ones and a zero byte give 0x2DFD1072, and a
zero register and a zero byte stay zero. -/
def Obligations.CrcUpdateConsumesOneByte : Prop :=
  (∀ b : Byte, decodeCommand (0x0000#16 ++ b ++ 0x02#8) = .crcUpdate b) ∧
  (∀ w : Word, w.extractLsb' 0 4 = 0x2#4 →
    (w.extractLsb' 4 4 ≠ 0#4 ∨ w.extractLsb' 16 2 ≠ 0#2 ∨ w.extractLsb' 18 14 ≠ 0#14) →
    decodeCommand w = .illegal w ∧
    ∀ s : State, ∃ t, exec (.wrCmd w) s = .next t ∧ t.crcState = s.crcState ∧ t.cerr = .illegalCmd) ∧
  (∀ (b : Byte) (s : State),
    exec (.crcUpdate b) s =
      .next { s with
        crcState := crcUpdateByte s.crcState b
        cerr := .none
        response := .writeDone }) ∧
  crcUpdateByte 0xFFFFFFFF 0x00 = 0x2DFD1072 ∧ crcUpdateByte 0x00000000 0x00 = 0x00000000 ∧
  crcUpdateByte 0xFFFFFFFF 0x31 = 0x7C231048

/-- R124: CRC_FINALIZE puts the complement of CRC_STATE into RDATA and leaves CRC_STATE; CRC_RESULT reads
the same value; after CRC_RESET it is 0. -/
def Obligations.CrcFinalizeLatchesTheComplement : Prop :=
  decodeCommand 0x00000003 = .crcFinalize ∧
  ∀ s : State,
    exec .crcFinalize s =
      .next { s with rdata := ~~~ s.crcState, cerr := .none, response := .writeDone } ∧
    s.readReg .crcResult = ~~~ s.crcState ∧
    (s.crcState = 0xFFFFFFFF → ~~~ s.crcState = 0x00000000)

/-- R120 in another form: XORing the byte into the register first and then shifting eight times, with
the polynomial XORed in whenever a 1 leaves, is the same update. -/
def Obligations.CrcUpdateByteIsXorThenEightShifts : Prop :=
  ∀ (r : Word) (b : Byte),
    crcUpdateByte r b =
      Nat.repeat (fun x : Word => if x.getLsbD 0 then (x >>> 1) ^^^ 0xEDB88320 else x >>> 1) 8
        (r ^^^ b.setWidth 32)

/-- R125 and R243: a host-driven pass (CRC_RESET, one CRC_UPDATE for each byte in order, CRC_FINALIZE)
leaves CRC of the bytes in RDATA and in CRC_RESULT, and changes only CRC_STATE, RDATA and CERR. -/
def Obligations.HostDrivenPassComputesTheCrc : Prop :=
  ∀ (bs : List Byte) (s : State),
    execAll (.crcReset :: (bs.map .crcUpdate ++ [.crcFinalize])) s =
      .next { s with
        crcState := ~~~ crcOf bs
        rdata := crcOf bs
        cerr := .none
        response := .writeDone }

/-- R127: the CRC of the empty sequence is 0, the check value holds, and changing any one byte of a
sequence (so flipping any one bit) changes its CRC. -/
def Obligations.CrcDetectsAnyOneByteChange : Prop :=
  crcOf [] = 0x00000000 ∧
  crcOf [0x31, 0x32, 0x33, 0x34, 0x35, 0x36, 0x37, 0x38, 0x39] = 0xCBF43926 ∧
  ∀ (before after : List Byte) (b c : Byte), b ≠ c →
    crcOf (before ++ b :: after) ≠ crcOf (before ++ c :: after)

/-! ### VALIDATE -/

/-- R143: a region smaller than the header. -/
def Obligations.ValidateRejectsASmallRegionUnread : Prop :=
  ∀ s : State, s.regionSize.toNat < 5 →
    exec .validate s =
      .next { s with
        vresult := .lengthInvalid
        hdrId := { tag := 0, major := 0, minor := 0 }
        hdrLen := 0
        expected := 0
        computed := 0
        cerr := .none
        response := .writeDone }

/-- R144 and R145: the five header bytes are read and latched, and a length below 9 or above the region
ends VALIDATE with no CRC pass and no checksum read. -/
def Obligations.ValidateRejectsABadLength : Prop :=
  ∀ (s : State) (h0 h1 h2 h3 h4 : Byte),
    5 ≤ s.regionSize.toNat →
    Answers s.storage s.regionBase [h0, h1, h2, h3, h4] →
    (h3.toNat + 256 * h4.toNat < 9 ∨ s.regionSize.toNat < h3.toNat + 256 * h4.toNat) →
    exec .validate s =
      .next { s with
        vresult := .lengthInvalid
        hdrId := { tag := h0, major := h1, minor := h2 }
        hdrLen := h4 ++ h3
        expected := 0
        computed := 0
        cerr := .none
        response := .writeDone
        history := (readEvents s.regionBase [h0, h1, h2, h3, h4]).reverse ++ s.history }

/-- R146 to R150 and R152: on a block whose length is legal VALIDATE reads the header, the covered region
and the checksum in that order, latches all of it, and gives the verdict: checksum first, then tag. -/
def Obligations.ValidateGivesTheVerdict : Prop :=
  ∀ (s : State) (h0 h1 h2 h3 h4 c0 c1 c2 c3 : Byte) (field : List Byte),
    h3.toNat + 256 * h4.toNat = field.length + 9 →
    field.length + 9 ≤ s.regionSize.toNat →
    Answers s.storage s.regionBase (h0 :: h1 :: h2 :: h3 :: h4 :: (field ++ [c0, c1, c2, c3])) →
    exec .validate s =
      .next { s with
        vresult :=
          if crcOf (h0 :: h1 :: h2 :: h3 :: h4 :: field) ≠ c3 ++ c2 ++ c1 ++ c0 then .checksumMismatch
          else if h0 ≠ s.platform.tagSentinel then .headerNotFound
          else .ok
        hdrId := { tag := h0, major := h1, minor := h2 }
        hdrLen := h4 ++ h3
        expected := c3 ++ c2 ++ c1 ++ c0
        computed := crcOf (h0 :: h1 :: h2 :: h3 :: h4 :: field)
        crcState := ~~~ crcOf (h0 :: h1 :: h2 :: h3 :: h4 :: field)
        cerr := .none
        response := .writeDone
        history :=
          (readEvents s.regionBase [h0, h1, h2, h3, h4] ++
            readEvents s.regionBase (h0 :: h1 :: h2 :: h3 :: h4 :: field) ++
            readEvents (s.regionBase + BitVec.ofNat 32 (field.length + 5)) [c0, c1, c2, c3]).reverse ++
            s.history }

/-- R70 and R155(f): VALIDATE is stuck at the first storage address of its sequence that does not answer;
by then it has discarded the previous result, and a header only partly read is not latched.  That a stuck
command is a fault carrying the state reached is the model's form (log 9). -/
def Obligations.ValidateIsStuckAtTheFirstSilentAddress : Prop :=
  ∀ (s : State) (bs : List Byte),
    5 ≤ s.regionSize.toNat →
    Answers s.storage s.regionBase bs →
    s.storage.get (s.regionBase + BitVec.ofNat 32 bs.length).toNat = none →
    (bs.length < 5 ∨
      ∃ h3 h4 : Byte, bs[3]? = some h3 ∧ bs[4]? = some h4 ∧
        9 ≤ h3.toNat + 256 * h4.toNat ∧ h3.toNat + 256 * h4.toNat ≤ s.regionSize.toNat ∧
        bs.length < h3.toNat + 256 * h4.toNat) →
    ∃ t : State,
      exec .validate s = .fault (.storageStuck (s.regionBase + BitVec.ofNat 32 bs.length) t) ∧
      t.vresult = .none ∧ t.expected = 0 ∧ t.computed = 0 ∧ t.cerr = s.cerr ∧ t.rdata = s.rdata ∧
      t.dest = s.dest ∧
      (bs.length < 5 →
        t.hdrId = { tag := 0, major := 0, minor := 0 } ∧ t.hdrLen = 0 ∧ t.crcState = s.crcState)

/-- R140: what VALIDATE never writes, on every path, and CERR = NONE after it. -/
def Obligations.ValidateFrame : Prop :=
  ∀ s t : State, exec .validate s = .next t →
    t.cerr = .none ∧ t.rdata = s.rdata ∧ t.argOffset = s.argOffset ∧ t.argSize = s.argSize ∧
    t.argDest = s.argDest ∧ t.regionBase = s.regionBase ∧ t.regionSize = s.regionSize ∧
    t.storage = s.storage ∧ t.dest = s.dest ∧ t.platform = s.platform ∧ t.busFault = s.busFault ∧
    t.pending = s.pending ∧ t.freeCount = s.freeCount

/-- R154: CRC_STATE after VALIDATE is unchanged if VALIDATE ended at the region or length check, and
otherwise the complement of COMPUTED, so that CRC_RESULT reads COMPUTED. -/
def Obligations.ValidateLeavesTheRunningRegister : Prop :=
  ∀ s t : State, exec .validate s = .next t →
    t.vresult ≠ .none ∧
    (t.vresult = .lengthInvalid → t.crcState = s.crcState) ∧
    (t.vresult ≠ .lengthInvalid →
      t.crcState = ~~~ t.computed ∧ t.readReg .crcResult = t.computed ∧ 9 ≤ t.hdrLen.toNat ∧
      ∃ covered : List Byte, covered.length = t.hdrLen.toNat - 4 ∧
        Answers s.storage s.regionBase covered ∧ t.crcState = crcRun 0xFFFFFFFF covered)

/-- R153: the outcome of VALIDATE, first match wins, in terms of what it latched. -/
def Obligations.ValidateOutcomePriority : Prop :=
  ∀ s t : State, exec .validate s = .next t →
    t.vresult =
      if s.regionSize.toNat < 5 then .lengthInvalid
      else if t.hdrLen.toNat < 9 ∨ s.regionSize.toNat < t.hdrLen.toNat then .lengthInvalid
      else if t.computed ≠ t.expected then .checksumMismatch
      else if t.hdrId.tag ≠ s.platform.tagSentinel then .headerNotFound
      else .ok

/-- R155(i): VALIDATE repeated at once gives the same registers and the same reads. -/
def Obligations.ValidateRepeatsItself : Prop :=
  ∀ s t : State, exec .validate s = .next t →
    ∃ es : List Event, t.history = es ++ s.history ∧
      exec .validate t = .next { t with history := es ++ t.history }

/-- The corruption property (95_test_vectors.md E6): on a storage that VALIDATE accepts, changing any one
covered byte but the two of the length makes it report CHECKSUM_MISMATCH. -/
def Obligations.CorruptedByteIsAChecksumMismatch : Prop :=
  ∀ (s t : State) (k : Nat) (b v : Byte),
    exec .validate s = .next t → t.vresult = .ok →
    k < t.hdrLen.toNat - 4 → k ≠ 3 → k ≠ 4 →
    s.storage.get (s.regionBase + BitVec.ofNat 32 k).toNat = some b → v ≠ b →
    ∃ u : State,
      exec .validate
        { s with storage := s.storage.put (s.regionBase + BitVec.ofNat 32 k).toNat v } = .next u ∧
      u.vresult = .checksumMismatch ∧ u.expected = t.expected ∧ u.computed ≠ t.computed

/-- The round trip of the source (95_test_vectors.md E8): a block assembled from a header with the
sentinel tag, field data and their CRC validates, and READ_FIELD then delivers the field data. -/
def Obligations.AssembledBlockValidatesAndReadsBack : Prop :=
  ∀ (s : State) (tag major minor l0 l1 : Byte) (field : List Byte) (d : Addr),
    tag = s.platform.tagSentinel →
    l0.toNat + 256 * l1.toNat = field.length + 9 →
    field.length + 9 ≤ s.regionSize.toNat →
    Answers s.storage s.regionBase
      (tag :: major :: minor :: l0 :: l1 ::
        (field ++
          [(crcOf (tag :: major :: minor :: l0 :: l1 :: field)).extractLsb' 0 8,
            (crcOf (tag :: major :: minor :: l0 :: l1 :: field)).extractLsb' 8 8,
            (crcOf (tag :: major :: minor :: l0 :: l1 :: field)).extractLsb' 16 8,
            (crcOf (tag :: major :: minor :: l0 :: l1 :: field)).extractLsb' 24 8])) →
    Accepts s d field.length →
    ∃ t u : State,
      exec .validate s = .next t ∧ t.vresult = .ok ∧
      exec .readField
        { t with argOffset := 0, argSize := BitVec.ofNat 16 field.length, argDest := d } = .next u ∧
      u.cerr = .none ∧
      ∀ i b, field[i]? = some b → u.dest.get (d + BitVec.ofNat 32 i).toNat = some b

/-! ### The field commands -/

/-- R177 and R216: without a validated view every field command ends with NOT_VALIDATED, whatever its
offset, with no access and no other effect. -/
def Obligations.FieldCommandsNeedAValidatedView : Prop :=
  ∀ s : State, s.vresult ≠ .ok →
    ∀ i ∈ [Instr.readField, .readScalarB, .readScalarH, .readScalarW],
      exec i s = .next { s with cerr := .notValidated, response := .writeDone }

/-- R171: a request whose end passes the field data ends with OUT_OF_BOUNDS, with no access and no other
effect; RDATA keeps its value. -/
def Obligations.FieldCommandsRespectTheBound : Prop :=
  ∀ s : State, s.vresult = .ok →
    ∀ p ∈ [(Instr.readField, s.argSize.toNat), (.readScalarB, 1), (.readScalarH, 2), (.readScalarW, 4)],
      (s.hdrLen.toNat : Int) - 9 < (s.argOffset.toNat : Int) + (p.2 : Int) →
      exec p.1 s = .next { s with cerr := .outOfBounds, response := .writeDone }

/-- R172: READ_FIELD copies ARG_SIZE bytes from field offset ARG_OFFSET to ARG_DEST, each write right
after its read, and changes no register but CERR and no other destination byte. -/
def Obligations.ReadFieldCopiesTheBytes : Prop :=
  ∀ (s : State) (bs : List Byte),
    s.vresult = .ok →
    bs.length = s.argSize.toNat →
    s.argOffset.toNat + s.argSize.toNat + 9 ≤ s.hdrLen.toNat →
    Answers s.storage (s.regionBase + BitVec.ofNat 32 (5 + s.argOffset.toNat)) bs →
    Accepts s s.argDest bs.length →
    ∃ d : Memory,
      exec .readField s =
        .next { s with
          dest := d
          cerr := .none
          response := .writeDone
          history :=
            (copyEvents (s.regionBase + BitVec.ofNat 32 (5 + s.argOffset.toNat)) s.argDest bs).reverse ++
              s.history } ∧
      (∀ i b, bs[i]? = some b → d.get (s.argDest + BitVec.ofNat 32 i).toNat = some b) ∧
      (∀ x : Nat, (∀ i, i < bs.length → x ≠ (s.argDest + BitVec.ofNat 32 i).toNat) →
        d.get x = s.dest.get x)

/-- R178: READ_FIELD of size 0 succeeds without an access up to the end of the field data, and is
OUT_OF_BOUNDS beyond it. -/
def Obligations.ReadFieldOfSizeZero : Prop :=
  ∀ s : State, s.vresult = .ok → s.argSize = 0 →
    ((s.argOffset.toNat : Int) ≤ (s.hdrLen.toNat : Int) - 9 →
      exec .readField s = .next { s with cerr := .none, response := .writeDone }) ∧
    ((s.hdrLen.toNat : Int) - 9 < (s.argOffset.toNat : Int) →
      exec .readField s = .next { s with cerr := .outOfBounds, response := .writeDone })

/-- R179: at a destination address that is not admitted READ_FIELD is stuck, with the earlier bytes
written and nothing else changed.  The fault's form is the model's (log 9). -/
def Obligations.ReadFieldIsStuckAtARefusedDestination : Prop :=
  ∀ (s : State) (bs : List Byte) (b : Byte),
    s.vresult = .ok →
    bs.length < s.argSize.toNat →
    s.argOffset.toNat + s.argSize.toNat + 9 ≤ s.hdrLen.toNat →
    Answers s.storage (s.regionBase + BitVec.ofNat 32 (5 + s.argOffset.toNat)) (bs ++ [b]) →
    Accepts s s.argDest bs.length →
    s.destAdmits (s.argDest + BitVec.ofNat 32 bs.length) = false →
    ∃ d : Memory, ∃ h : List Event,
      exec .readField s =
        .fault (.destStuck (s.argDest + BitVec.ofNat 32 bs.length) { s with dest := d, history := h }) ∧
      (∀ i c, bs[i]? = some c → d.get (s.argDest + BitVec.ofNat 32 i).toNat = some c) ∧
      (∀ x : Nat, (∀ i, i < bs.length → x ≠ (s.argDest + BitVec.ofNat 32 i).toNat) →
        d.get x = s.dest.get x)

/-- R81 and R255: where storage and destination are one memory, a READ_FIELD whose destination reaches a
storage address or the region is refused at that write.  The spec gives such a run no meaning; the refusal
and its point are the model's choice (log 8). -/
def Obligations.OverlappingDestinationIsRefused : Prop :=
  ∀ (s : State) (bs : List Byte) (b : Byte),
    s.vresult = .ok →
    s.platform.shared = true →
    bs.length < s.argSize.toNat →
    s.argOffset.toNat + s.argSize.toNat + 9 ≤ s.hdrLen.toNat →
    Answers s.storage (s.regionBase + BitVec.ofNat 32 (5 + s.argOffset.toNat)) (bs ++ [b]) →
    Accepts s s.argDest bs.length →
    s.destAdmits (s.argDest + BitVec.ofNat 32 bs.length) = true →
    (s.storage.get (s.argDest + BitVec.ofNat 32 bs.length).toNat ≠ none ∨
      ∃ k, k < s.regionSize.toNat ∧
        s.argDest + BitVec.ofNat 32 bs.length = s.regionBase + BitVec.ofNat 32 k) →
    ∃ t : State,
      exec .readField s =
        .refused (.destOverlapsStorage (s.argDest + BitVec.ofNat 32 bs.length) t) ∧
      t.storage = s.storage

/-- R174, R175 and R176: the value of a READ_SCALAR is the bytes at ARG_OFFSET, little-endian and
zero-extended, in RDATA; no other register changes but CERR. -/
def Obligations.ReadScalarValues : Prop :=
  ∀ (s : State) (b0 b1 b2 b3 : Byte), s.vresult = .ok →
    (s.argOffset.toNat + 1 + 9 ≤ s.hdrLen.toNat →
      Answers s.storage (s.regionBase + BitVec.ofNat 32 (5 + s.argOffset.toNat)) [b0] →
      exec .readScalarB s =
        .next { s with
          rdata := 0#24 ++ b0
          cerr := .none
          response := .writeDone
          history :=
            (readEvents (s.regionBase + BitVec.ofNat 32 (5 + s.argOffset.toNat)) [b0]).reverse ++
              s.history }) ∧
    (s.argOffset.toNat + 2 + 9 ≤ s.hdrLen.toNat →
      Answers s.storage (s.regionBase + BitVec.ofNat 32 (5 + s.argOffset.toNat)) [b0, b1] →
      exec .readScalarH s =
        .next { s with
          rdata := 0#16 ++ b1 ++ b0
          cerr := .none
          response := .writeDone
          history :=
            (readEvents (s.regionBase + BitVec.ofNat 32 (5 + s.argOffset.toNat)) [b0, b1]).reverse ++
              s.history }) ∧
    (s.argOffset.toNat + 4 + 9 ≤ s.hdrLen.toNat →
      Answers s.storage (s.regionBase + BitVec.ofNat 32 (5 + s.argOffset.toNat)) [b0, b1, b2, b3] →
      exec .readScalarW s =
        .next { s with
          rdata := b3 ++ b2 ++ b1 ++ b0
          cerr := .none
          response := .writeDone
          history :=
            (readEvents (s.regionBase + BitVec.ofNat 32 (5 + s.argOffset.toNat))
              [b0, b1, b2, b3]).reverse ++ s.history })

/-- R70: a field command whose checks pass is stuck at the first of its storage addresses that does not
answer, with RDATA and CERR unchanged.  The fault's form is the model's (log 9). -/
def Obligations.FieldCommandsAreStuckAtASilentAddress : Prop :=
  ∀ (s : State) (bs : List Byte), s.vresult = .ok →
    Answers s.storage (s.regionBase + BitVec.ofNat 32 (5 + s.argOffset.toNat)) bs →
    s.storage.get
      (s.regionBase + BitVec.ofNat 32 (5 + s.argOffset.toNat) + BitVec.ofNat 32 bs.length).toNat = none →
    ∀ p ∈ [(Instr.readField, s.argSize.toNat), (.readScalarB, 1), (.readScalarH, 2), (.readScalarW, 4)],
      bs.length < p.2 → s.argOffset.toNat + p.2 + 9 ≤ s.hdrLen.toNat →
      (p.1 = .readField → Accepts s s.argDest bs.length) →
      ∃ t : State,
        exec p.1 s =
          .fault (.storageStuck
            (s.regionBase + BitVec.ofNat 32 (5 + s.argOffset.toNat) + BitVec.ofNat 32 bs.length) t) ∧
        t.rdata = s.rdata ∧ t.cerr = s.cerr ∧ t.crcState = s.crcState

/-- R75(b) and R171: whatever a field command does, finished, stuck or refused, it reads storage only
inside the field data of the latched view: never the checksum, never beyond the block. -/
def Obligations.FieldReadsStayInsideTheFieldData : Prop :=
  ∀ (s t : State), ∀ i ∈ [Instr.readField, .readScalarB, .readScalarH, .readScalarW],
    Reaches (exec i s) t →
    ∃ es : List Event, t.history = es ++ s.history ∧
      ∀ a b, Event.storageRead a b ∈ es →
        ∃ k, a = s.regionBase + BitVec.ofNat 32 k ∧ 5 ≤ k ∧ k + 4 < s.hdrLen.toNat

/-- R75(a) and R152: whatever VALIDATE does, finished or stuck, it reads storage only at block offsets
below REGION_SIZE, and past the header only below the latched length. -/
def Obligations.ValidateReadsStayInsideTheRegion : Prop :=
  ∀ s t : State, Reaches (exec .validate s) t →
    ∃ es : List Event, t.history = es ++ s.history ∧
      ∀ a b, Event.storageRead a b ∈ es →
        ∃ k, a = s.regionBase + BitVec.ofNat 32 k ∧ k < s.regionSize.toNat ∧
          (k < 5 ∨ k < t.hdrLen.toNat)

/-! ### The register port -/

/-- R25 and R26: STATUS is VRESULT, VALID and CERR in their places with the rest 0; VALID is 1 exactly
when VRESULT is 1; the codes 5 to 7 of VRESULT and 4 to 7 of CERR do not occur. -/
def Obligations.StatusLayout : Prop :=
  ∀ s : State,
    s.statusWord.extractLsb' 0 3 =
      (match s.vresult with
        | .none => 0 | .ok => 1 | .checksumMismatch => 2 | .headerNotFound => 3 | .lengthInvalid => 4) ∧
    (s.statusWord.getLsbD 3 = true ↔ s.statusWord.extractLsb' 0 3 = 1#3) ∧
    s.statusWord.extractLsb' 4 3 =
      (match s.cerr with
        | .none => 0 | .illegalCmd => 1 | .outOfBounds => 2 | .notValidated => 3) ∧
    s.statusWord.extractLsb' 7 25 = 0#25

/-- R191, R197 and R198: each read returns its register's value, reserved bits as 0, and changes no
register and no memory. -/
def Obligations.RegisterReadsReturnTheValue : Prop :=
  ∀ s : State,
    ∀ row ∈ [(Instr.rdCmd, 0x00, (0 : Word)), (.rdStatus, 0x04, s.statusWord),
        (.rdCrcState, 0x08, s.crcState), (.rdCrcResult, 0x0C, ~~~ s.crcState),
        (.rdRegionBase, 0x10, s.regionBase), (.rdRegionSize, 0x14, s.regionSize),
        (.rdHdrId, 0x18, 0#8 ++ s.hdrId.minor ++ s.hdrId.major ++ s.hdrId.tag),
        (.rdHdrLen, 0x1C, 0#16 ++ s.hdrLen), (.rdExpected, 0x20, s.expected),
        (.rdComputed, 0x24, s.computed), (.rdArgOffset, 0x28, 0#16 ++ s.argOffset),
        (.rdArgSize, 0x2C, 0#16 ++ s.argSize), (.rdArgDest, 0x30, s.argDest),
        (.rdRdata, 0x34, s.rdata)],
      exec row.1 s =
        .next { s with
          response := .readData row.2.2
          history := .regRead row.2.1 row.2.2 :: s.history }

/-- R193: a write to a read/write register changes that register alone; ARG_OFFSET and ARG_SIZE keep bits
[15:0]. -/
def Obligations.RegisterWritesTakeTheValue : Prop :=
  ∀ (s : State) (v : Word),
    exec (.wrRegionBase v) s =
      .next { s with
        regionBase := v, response := .writeDone, history := .regWrite 0x10 v :: s.history } ∧
    exec (.wrRegionSize v) s =
      .next { s with
        regionSize := v, response := .writeDone, history := .regWrite 0x14 v :: s.history } ∧
    exec (.wrArgOffset v) s =
      .next { s with
        argOffset := v.extractLsb' 0 16, response := .writeDone
        history := .regWrite 0x28 v :: s.history } ∧
    exec (.wrArgSize v) s =
      .next { s with
        argSize := v.extractLsb' 0 16, response := .writeDone
        history := .regWrite 0x2C v :: s.history } ∧
    exec (.wrArgDest v) s =
      .next { s with
        argDest := v, response := .writeDone, history := .regWrite 0x30 v :: s.history }

/-- R194: a write to a read-only register completes, is ignored, and reports no error. -/
def Obligations.ReadOnlyWritesAreIgnored : Prop :=
  ∀ (s : State) (v : Word),
    ∀ row ∈ [(Instr.wrStatus v, 0x04), (.wrCrcState v, 0x08), (.wrCrcResult v, 0x0C),
        (.wrHdrId v, 0x18), (.wrHdrLen v, 0x1C), (.wrExpected v, 0x20), (.wrComputed v, 0x24),
        (.wrRdata v, 0x34)],
      exec row.1 s =
        .next { s with response := .writeDone, history := .regWrite row.2 v :: s.history }

/-- R195: a write to CMD executes the command its word decodes to, after the access is recorded (the order
of the record is the model's choice, log 13). -/
def Obligations.CmdWriteIssuesTheCommand : Prop :=
  ∀ (w : Word) (s : State),
    exec (.wrCmd w) s =
      exec (decodeCommand w).toInstr { s with history := .regWrite 0x00 w :: s.history }

/-- R259: where every access is admitted every command, and every write to CMD, finishes, with at most
L + 5 storage reads and nothing else for VALIDATE, and at most 65535 storage reads and 65535 destination
writes and nothing else for READ_FIELD; and a command is stuck only at an access that is not admitted.
On a platform with one memory for both spaces, admitted also means outside the storage (the model's
choice, log 8). -/
def Obligations.CommandsFinishWhereAccessesAreAdmitted : Prop :=
  ∀ s : State,
    (AccessesAdmitted s →
      (∀ c : Command, ∃ t, exec c.toInstr s = .next t) ∧
      (∀ w : Word, ∃ t, exec (.wrCmd w) s = .next t)) ∧
    (∀ t, exec .validate s = .next t → ∃ es : List Event, t.history = es ++ s.history ∧
      es.countP isStorageRead = es.length ∧
      es.countP isStorageRead ≤ t.hdrLen.toNat + 5) ∧
    (∀ t, exec .readField s = .next t → ∃ es : List Event, t.history = es ++ s.history ∧
      es.countP isStorageRead + es.countP isDestWrite = es.length ∧
      es.countP isStorageRead ≤ 65535 ∧ es.countP isDestWrite ≤ 65535) ∧
    (∀ (c : Command) (f : Fault), exec c.toInstr s = .fault f →
      (∃ a t, f = .storageStuck a t ∧ s.storageAdmits a = false) ∨
      (∃ a t, f = .destStuck a t ∧ s.destAdmits a = false))

/-- R192 at the reserved offsets: SLVERR; `busFault` is set and no register and no memory changes.  The
data returned to a read is not defined: some value, of which the statement says nothing (log 11).  That
the answer is a next state, recorded, is the model's reading (logs 10 and 13). -/
def Obligations.ReservedOffsetsAnswerSlverr : Prop :=
  ∀ s : State,
    (∀ row ∈ [(Instr.slverr38R, 0x38), (.slverr3cR, 0x3C)], ∃ x : Word,
      exec row.1 s =
        .next { s with
          busFault := true
          response := .readError x
          history := .regRead row.2 x :: s.history
          freeCount := s.freeCount + 1 }) ∧
    ∀ v : Word, ∀ row ∈ [(Instr.slverr38W v, 0x38), (.slverr3cW v, 0x3C)],
      exec row.1 s =
        .next { s with
          busFault := true
          response := .writeError
          history := .regWrite row.2 v :: s.history }

/-- R192 for a bad width or a misaligned offset: SLVERR; `busFault` is set, nothing is written and no
command is issued; the data returned to a read is some value (log 11).  Queue, next state and record are
the model's readings (logs 1, 10, 13, 15). -/
def Obligations.NarrowOrMisalignedAccessAnswersSlverr : Prop :=
  ∀ (s : State) (a : Access) (rest : List HostEvent),
    s.pending = .access a :: rest →
    (a.addr - s.platform.regBase).toNat < 0x40 →
    (a.width ≠ 32 ∨ (a.addr - s.platform.regBase).toNat % 4 ≠ 0) →
    (a.op = .read → ∃ x : Word,
      step s =
        .next { s with
          pending := rest
          busFault := true
          response := .readError x
          history := .regRead (a.addr - s.platform.regBase).toNat x :: s.history
          freeCount := s.freeCount + 1 }) ∧
    (∀ v, a.op = .write v →
      step s =
        .next { s with
          pending := rest
          busFault := true
          response := .writeError
          history := .regWrite (a.addr - s.platform.regBase).toNat v :: s.history })

/-! ### The whole machine -/

/-- Every step from a consistent state ends in a consistent state: the memories keep their canonical
form, the latched view agrees with VRESULT, the history agrees with the storage and the platform. -/
def Obligations.StepKeepsConsistency : Prop :=
  ∀ s t : State, Consistent s → step s = .next t → Consistent t

/-- The state after reset is consistent, on every platform whose storage is in canonical form.  The empty
memories and history of `State.reset` are the model's choices (logs 5, 7, 13). -/
def Obligations.ResetIsConsistent : Prop :=
  Consistent State.reset ∧
  ∀ (p : Platform) (m : Memory), m.wf → Consistent (State.resetOn p m)

/-- R240: what each register reads after reset, at the start of a run (where `busFault` is false) and at
a hardware reset during it (which leaves `busFault` as it is). -/
def Obligations.ResetValues : Prop :=
  (∀ (p : Platform) (m : Memory),
    (∀ r : Reg, (State.resetOn p m).readReg r = if r = .crcState then 0xFFFFFFFF else 0x00000000) ∧
    (State.resetOn p m).vresult = .none ∧ (State.resetOn p m).valid = false ∧
    (State.resetOn p m).cerr = .none ∧ (State.resetOn p m).busFault = false) ∧
  ∀ s : State,
    (∀ r : Reg, s.hardwareReset.readReg r = if r = .crcState then 0xFFFFFFFF else 0x00000000) ∧
    s.hardwareReset.vresult = .none ∧ s.hardwareReset.valid = false ∧
    s.hardwareReset.cerr = .none ∧ s.hardwareReset.busFault = s.busFault

/-- R240 and R241 for a reset between commands: every register takes its reset value; the memories, the
platform, the history and `busFault` (cleared only by a new run) stay.  What stays of the model's own
fields, and that `response` is cleared, are its choices (logs 12 and 16). -/
def Obligations.HardwareResetStep : Prop :=
  ∀ (s : State) (rest : List HostEvent), s.pending = .reset :: rest →
    step s =
      .next { s with
        pending := rest
        vresult := .none
        cerr := .none
        crcState := 0xFFFFFFFF
        regionBase := 0
        regionSize := 0
        hdrId := { tag := 0, major := 0, minor := 0 }
        hdrLen := 0
        expected := 0
        computed := 0
        argOffset := 0
        argSize := 0
        argDest := 0
        rdata := 0
        response := .none }

/-- R241 for a reset during READ_FIELD: after `k` of its accesses the registers take their reset values,
and the destination bytes already written stay written.  The point of the reset as a number of accesses
(log 17), the queue (log 1) and the record of the aborted CMD write, before its accesses (log 13), are the
model's choices. -/
def Obligations.ResetDuringReadFieldKeepsWrittenBytes : Prop :=
  ∀ (s : State) (rest : List HostEvent) (bs : List Byte) (k : Nat),
    s.pending = .resetDuring 0x00000005 k :: rest →
    s.vresult = .ok →
    bs.length = s.argSize.toNat →
    s.argOffset.toNat + s.argSize.toNat + 9 ≤ s.hdrLen.toNat →
    Answers s.storage (s.regionBase + BitVec.ofNat 32 (5 + s.argOffset.toNat)) bs →
    Accepts s s.argDest bs.length →
    ∃ t : State, step s = .next t ∧
      (∀ r : Reg, t.readReg r = if r = .crcState then 0xFFFFFFFF else 0x00000000) ∧
      t.pending = rest ∧ t.storage = s.storage ∧ t.platform = s.platform ∧ t.busFault = s.busFault ∧
      t.history =
        ((copyEvents (s.regionBase + BitVec.ofNat 32 (5 + s.argOffset.toNat)) s.argDest bs).take
          k).reverse ++ .regWrite 0x00 0x00000005 :: s.history ∧
      (∀ i b, i < k / 2 → bs[i]? = some b →
        t.dest.get (s.argDest + BitVec.ofNat 32 i).toNat = some b) ∧
      (∀ x : Nat, (∀ i, i < k / 2 → i < bs.length → x ≠ (s.argDest + BitVec.ofNat 32 i).toNat) →
        t.dest.get x = s.dest.get x)

/-- A step whose event is an access that decodes to an instruction is that instruction's `exec`, with
the event taken from the queue; an access outside the window changes nothing else; with no event nothing
changes.  The queue and the access outside the window are the model's (logs 1 and 14). -/
def Obligations.StepRunsTheDecodedInstruction : Prop :=
  ∀ s : State,
    (∀ a rest i, s.pending = .access a :: rest → decodeAccess s.platform.regBase a = .instr i →
      step s = exec i { s with pending := rest }) ∧
    (∀ a rest, s.pending = .access a :: rest → decodeAccess s.platform.regBase a = .notSelected →
      step s = .next { s with pending := rest }) ∧
    (s.pending = [] → step s = .next s)

/-- What `withFetchWord` puts before the machine runs at the next step: a 32-bit word as a command
written to CMD, a shorter word as the access at its offset (the model's layout, log 2). -/
def Obligations.FetchWordRunsItsInstruction : Prop :=
  ∀ s : State,
    (∀ w : Word, step (s.withFetchWord 32 w.toNat) = exec (.wrCmd w) s) ∧
    (∀ (w : Nat) (i : Instr), decodeTableWord 8 w = some i → step (s.withFetchWord 8 w) = exec i s)

/-- R40 and R61: nothing a step does, finished, stuck or refused, changes the storage or the platform's
parameters; and no instruction touches the host's queue. -/
def Obligations.StorageIsConstant : Prop :=
  (∀ s t : State, Reaches (step s) t → t.storage = s.storage ∧ t.platform = s.platform) ∧
  ∀ (i : Instr) (s t : State), Reaches (exec i s) t → t.pending = s.pending

/-- R42 and R192: no step clears `busFault`, and of the instructions only the accesses to the reserved
offsets set it. -/
def Obligations.BusFaultIsSticky : Prop :=
  (∀ s t : State, step s = .next t → s.busFault = true → t.busFault = true) ∧
  ∀ (i : Instr) (s t : State), exec i s = .next t → t.busFault ≠ s.busFault →
    i = .slverr38R ∨ i = .slverr3cR ∨ ∃ v, i = .slverr38W v ∨ i = .slverr3cW v

/-- R25, R32 to R35 and R45: of the instructions only VALIDATE, or the write to CMD that issues it,
changes the latched view. -/
def Obligations.OnlyValidateChangesTheView : Prop :=
  ∀ (i : Instr) (s t : State), Reaches (exec i s) t →
    i ≠ .validate → (∀ w, i = .wrCmd w → decodeCommand w ≠ .validate) →
    t.vresult = s.vresult ∧ t.hdrId = s.hdrId ∧ t.hdrLen = s.hdrLen ∧ t.expected = s.expected ∧
    t.computed = s.computed

/-- R28: of the instructions only CRC_RESET, CRC_UPDATE and VALIDATE, or the writes to CMD that issue
them, change CRC_STATE. -/
def Obligations.OnlyThreeCommandsChangeCrcState : Prop :=
  ∀ (i : Instr) (s t : State), Reaches (exec i s) t → t.crcState ≠ s.crcState →
    ∃ c : Command, (c = .crcReset ∨ (∃ b, c = .crcUpdate b) ∨ c = .validate) ∧
      (i = c.toInstr ∨ ∃ w, i = .wrCmd w ∧ decodeCommand w = c)

/-- R30, R31, R36, R37, R38 and R47: of the instructions only the host's write to a region or argument
register changes it. -/
def Obligations.OnlyHostWritesChangeRegionAndArguments : Prop :=
  ∀ (i : Instr) (s t : State), Reaches (exec i s) t →
    (t.regionBase ≠ s.regionBase → ∃ v, i = .wrRegionBase v) ∧
    (t.regionSize ≠ s.regionSize → ∃ v, i = .wrRegionSize v) ∧
    (t.argOffset ≠ s.argOffset → ∃ v, i = .wrArgOffset v) ∧
    (t.argSize ≠ s.argSize → ∃ v, i = .wrArgSize v) ∧
    (t.argDest ≠ s.argDest → ∃ v, i = .wrArgDest v)

/-- R27: of the instructions only a command, or a write to CMD, changes CERR; RDATA is changed only by
CRC_FINALIZE and the READ_SCALARs (R39), and not when the command ends in an error. -/
def Obligations.OnlyCommandsChangeCerrAndRdata : Prop :=
  ∀ (i : Instr) (s t : State), Reaches (exec i s) t →
    (t.cerr ≠ s.cerr → (∃ c : Command, i = c.toInstr) ∨ ∃ w, i = .wrCmd w) ∧
    (t.rdata ≠ s.rdata → t.cerr = .none ∧
      ∃ c : Command,
        (c = .crcFinalize ∨ c = .readScalarB ∨ c = .readScalarH ∨ c = .readScalarW) ∧
        (i = c.toInstr ∨ ∃ w, i = .wrCmd w ∧ decodeCommand w = c))

/-- R41, R42(b) and R62: the history only grows, the destination changes exactly by the destination
writes recorded, and only READ_FIELD, or the write to CMD that issues it, records one. -/
def Obligations.DestinationChangesOnlyByRecordedWrites : Prop :=
  ∀ (i : Instr) (s t : State), Reaches (exec i s) t →
    ∃ es : List Event, t.history = es ++ s.history ∧ t.dest = replayWrites es.reverse s.dest ∧
      ((∃ a b, Event.destWrite a b ∈ es) →
        i = .readField ∨ ∃ w, i = .wrCmd w ∧ decodeCommand w = .readField)

/-- R241 for a reset during any command, finished, stuck or otherwise: where the step answers a next state,
every register has its reset value, the first `k` accesses of those the CMD write makes are done and
recorded, the destination is changed by their writes alone, and nothing else changes.  The step is never a
fault, and it is refused only where the CMD write itself is, so never where the two spaces are not one
memory.  The point of the reset (log 17), the queue (log 1), the record (log 13), the cleared `response`
(logs 12 and 16) and the refusal (log 8) are the model's choices. -/
def Obligations.ResetDuringAnyCommandAbortsIt : Prop :=
  ∀ (s : State) (w : Word) (k : Nat) (rest : List HostEvent),
    s.pending = .resetDuring w k :: rest →
    (∀ t, step s = .next t →
      (∀ r : Reg, t.readReg r = if r = .crcState then 0xFFFFFFFF else 0x00000000) ∧
      ∃ (u : State) (es : List Event),
        Reaches (exec (.wrCmd w) { s with pending := rest }) u ∧
        u.history = es.reverse ++ .regWrite 0x00 w :: s.history ∧
        t = State.hardwareReset
          { s with
            pending := rest
            dest := replayWrites (es.take k) s.dest
            history := (es.take k).reverse ++ .regWrite 0x00 w :: s.history }) ∧
    (∀ f, step s ≠ .fault f) ∧
    (∀ q, step s = .refused q → exec (.wrCmd w) { s with pending := rest } = .refused q) ∧
    (s.platform.shared = false → ∃ t, step s = .next t)
end

