-- ==== Sys2Proof/Laws/Crc.lean ====
section
/-! SUPPORT. The small laws of the CRC functions. -/

namespace Sys2Proof.Machine

@[simp] theorem crcRun_nil (r : Word) : crcRun r [] = r := rfl

@[simp] theorem crcRun_cons (r : Word) (b : Byte) (bs : List Byte) :
    crcRun r (b :: bs) = crcRun (crcUpdateByte r b) bs := rfl

theorem crcRun_append (r : Word) (bs cs : List Byte) :
    crcRun r (bs ++ cs) = crcRun (crcRun r bs) cs := by
  simp [crcRun]

@[simp] theorem crcFinalize_crcFinalize (r : Word) : crcFinalize (crcFinalize r) = r := by
  simp [crcFinalize]

theorem crcFinalize_inj {r q : Word} (h : crcFinalize r = crcFinalize q) : r = q := by
  rw [← crcFinalize_crcFinalize r, h, crcFinalize_crcFinalize]

/-- Finalizing is XORing CRC_XOROUT (R7). -/
theorem crcFinalize_eq_xor (r : Word) : crcFinalize r = r ^^^ Config.crcXorOut := by
  rw [crcFinalize, ← BitVec.xor_allOnes]
  rfl

/-- The running register behind a CRC (R121, R125). -/
theorem not_crcOf (bs : List Byte) : ~~~ crcOf bs = crcRun Config.crcInit bs := by
  simp [crcOf, crcFinalize]

end Sys2Proof.Machine
end

