-- ==== Sys2Proof/Laws/Memory.lean ====
section
/-! SUPPORT. The laws of the byte memory: read after write, other addresses untouched, and the
canonical form kept. -/

namespace Sys2Proof.Machine

@[simp] theorem Memory.get_nil (a : Nat) : Memory.get [] a = none := rfl

/-- A write is read back, and leaves every other address alone. -/
theorem Memory.get_put (m : Memory) (a : Nat) (v : Byte) (a' : Nat) :
    (m.put a v).get a' = if a' = a then some v else m.get a' := by
  induction m with
  | nil => simp [Memory.put, Memory.get, eq_comm]
  | cons c m ih =>
    obtain ⟨k, b⟩ := c
    simp only [Memory.put]
    split
    · simp [Memory.get, eq_comm]
    · split
      · rename_i h; subst h
        simp only [Memory.get]
        grind
      · simp only [Memory.get, ih]
        grind

@[simp] theorem Memory.get_put_same (m : Memory) (a : Nat) (v : Byte) : (m.put a v).get a = some v := by
  simp [Memory.get_put]

theorem Memory.get_put_other {a a' : Nat} (m : Memory) (v : Byte) (h : a' ≠ a) :
    (m.put a v).get a' = m.get a' := by
  simp [Memory.get_put, h]

/-- The addresses listed after a write are the one written and the ones listed before. -/
theorem Memory.mem_put {m : Memory} {a : Nat} {v : Byte} {c : Host.Cell} (h : c ∈ m.put a v) :
    c = (a, v) ∨ c ∈ m := by
  induction m with
  | nil => simpa [Memory.put] using h
  | cons d m ih =>
    obtain ⟨k, b⟩ := d
    simp only [Memory.put] at h
    split at h
    · simpa using h
    · split at h
      · rcases List.mem_cons.1 h with h | h
        · exact .inl h
        · exact .inr (List.mem_cons_of_mem _ h)
      · rcases List.mem_cons.1 h with h | h
        · exact .inr (h ▸ List.mem_cons_self)
        · exact (ih h).imp_right (List.mem_cons_of_mem _)

theorem Memory.wf_nil : Memory.wf [] := ⟨List.Pairwise.nil, by simp⟩

/-- A write keeps the canonical form. -/
theorem Memory.wf_put {m : Memory} {a : Nat} {v : Byte} (h : m.wf) (ha : a < 2 ^ 32) :
    (m.put a v).wf := by
  refine ⟨?_, fun c hc => (Memory.mem_put hc).elim (fun e => e ▸ ha) (h.2 c)⟩
  have hp := h.1
  clear h
  induction m with
  | nil => simp [Memory.put]
  | cons d m ih =>
    obtain ⟨k, b⟩ := d
    obtain ⟨hd, hm⟩ := List.pairwise_cons.1 hp
    simp only [Memory.put]
    split
    · rename_i hlt
      refine List.pairwise_cons.2 ⟨fun c hc => ?_, hp⟩
      rcases List.mem_cons.1 hc with rfl | hc
      · exact hlt
      · exact hlt.trans (hd c hc)
    · split
      · rename_i heq
        exact List.pairwise_cons.2 ⟨fun c hc => heq ▸ hd c hc, hm⟩
      · refine List.pairwise_cons.2 ⟨fun c hc => ?_, ih hm⟩
        rcases Memory.mem_put hc with rfl | hc
        · show k < a
          omega
        · exact hd c hc

/-- Consecutive writes keep the canonical form. -/
theorem Memory.wf_putBytes (bs : List Byte) : ∀ {m : Memory} (a : Addr), m.wf → (m.putBytes a bs).wf := by
  induction bs with
  | nil => exact fun _ h => h
  | cons b bs ih => exact fun a h => ih _ (Memory.wf_put h a.isLt)

end Sys2Proof.Machine
end

