-- ==== Sys2Proof/Laws/State.lean ====
section
/-! SUPPORT. One lemma for each field under each named update of the state, true by rfl, so that no
proof unfolds a record update. -/

namespace Sys2Proof.Machine

/-! ### `State.log` -/

@[simp] theorem State.log_vresult (s : State) (e : Event) : (s.log e).vresult = s.vresult := rfl
@[simp] theorem State.log_cerr (s : State) (e : Event) : (s.log e).cerr = s.cerr := rfl
@[simp] theorem State.log_crcState (s : State) (e : Event) : (s.log e).crcState = s.crcState := rfl
@[simp] theorem State.log_regionBase (s : State) (e : Event) : (s.log e).regionBase = s.regionBase := rfl
@[simp] theorem State.log_regionSize (s : State) (e : Event) : (s.log e).regionSize = s.regionSize := rfl
@[simp] theorem State.log_hdrId (s : State) (e : Event) : (s.log e).hdrId = s.hdrId := rfl
@[simp] theorem State.log_hdrLen (s : State) (e : Event) : (s.log e).hdrLen = s.hdrLen := rfl
@[simp] theorem State.log_expected (s : State) (e : Event) : (s.log e).expected = s.expected := rfl
@[simp] theorem State.log_computed (s : State) (e : Event) : (s.log e).computed = s.computed := rfl
@[simp] theorem State.log_argOffset (s : State) (e : Event) : (s.log e).argOffset = s.argOffset := rfl
@[simp] theorem State.log_argSize (s : State) (e : Event) : (s.log e).argSize = s.argSize := rfl
@[simp] theorem State.log_argDest (s : State) (e : Event) : (s.log e).argDest = s.argDest := rfl
@[simp] theorem State.log_rdata (s : State) (e : Event) : (s.log e).rdata = s.rdata := rfl
@[simp] theorem State.log_storage (s : State) (e : Event) : (s.log e).storage = s.storage := rfl
@[simp] theorem State.log_dest (s : State) (e : Event) : (s.log e).dest = s.dest := rfl
@[simp] theorem State.log_platform (s : State) (e : Event) : (s.log e).platform = s.platform := rfl
@[simp] theorem State.log_busFault (s : State) (e : Event) : (s.log e).busFault = s.busFault := rfl
@[simp] theorem State.log_history (s : State) (e : Event) : (s.log e).history = e :: s.history := rfl
@[simp] theorem State.log_pending (s : State) (e : Event) : (s.log e).pending = s.pending := rfl
@[simp] theorem State.log_response (s : State) (e : Event) : (s.log e).response = s.response := rfl
@[simp] theorem State.log_freeCount (s : State) (e : Event) : (s.log e).freeCount = s.freeCount := rfl

/-! ### `State.withCrc` -/

@[simp] theorem State.withCrc_vresult (s : State) (v : Word) : (s.withCrc v).vresult = s.vresult := rfl
@[simp] theorem State.withCrc_cerr (s : State) (v : Word) : (s.withCrc v).cerr = s.cerr := rfl
@[simp] theorem State.withCrc_crcState (s : State) (v : Word) : (s.withCrc v).crcState = v := rfl
@[simp] theorem State.withCrc_regionBase (s : State) (v : Word) : (s.withCrc v).regionBase = s.regionBase := rfl
@[simp] theorem State.withCrc_regionSize (s : State) (v : Word) : (s.withCrc v).regionSize = s.regionSize := rfl
@[simp] theorem State.withCrc_hdrId (s : State) (v : Word) : (s.withCrc v).hdrId = s.hdrId := rfl
@[simp] theorem State.withCrc_hdrLen (s : State) (v : Word) : (s.withCrc v).hdrLen = s.hdrLen := rfl
@[simp] theorem State.withCrc_expected (s : State) (v : Word) : (s.withCrc v).expected = s.expected := rfl
@[simp] theorem State.withCrc_computed (s : State) (v : Word) : (s.withCrc v).computed = s.computed := rfl
@[simp] theorem State.withCrc_argOffset (s : State) (v : Word) : (s.withCrc v).argOffset = s.argOffset := rfl
@[simp] theorem State.withCrc_argSize (s : State) (v : Word) : (s.withCrc v).argSize = s.argSize := rfl
@[simp] theorem State.withCrc_argDest (s : State) (v : Word) : (s.withCrc v).argDest = s.argDest := rfl
@[simp] theorem State.withCrc_rdata (s : State) (v : Word) : (s.withCrc v).rdata = s.rdata := rfl
@[simp] theorem State.withCrc_storage (s : State) (v : Word) : (s.withCrc v).storage = s.storage := rfl
@[simp] theorem State.withCrc_dest (s : State) (v : Word) : (s.withCrc v).dest = s.dest := rfl
@[simp] theorem State.withCrc_platform (s : State) (v : Word) : (s.withCrc v).platform = s.platform := rfl
@[simp] theorem State.withCrc_busFault (s : State) (v : Word) : (s.withCrc v).busFault = s.busFault := rfl
@[simp] theorem State.withCrc_history (s : State) (v : Word) : (s.withCrc v).history = s.history := rfl
@[simp] theorem State.withCrc_pending (s : State) (v : Word) : (s.withCrc v).pending = s.pending := rfl
@[simp] theorem State.withCrc_response (s : State) (v : Word) : (s.withCrc v).response = s.response := rfl
@[simp] theorem State.withCrc_freeCount (s : State) (v : Word) : (s.withCrc v).freeCount = s.freeCount := rfl

/-! ### `State.withRdata` -/

@[simp] theorem State.withRdata_vresult (s : State) (v : Word) : (s.withRdata v).vresult = s.vresult := rfl
@[simp] theorem State.withRdata_cerr (s : State) (v : Word) : (s.withRdata v).cerr = s.cerr := rfl
@[simp] theorem State.withRdata_crcState (s : State) (v : Word) : (s.withRdata v).crcState = s.crcState := rfl
@[simp] theorem State.withRdata_regionBase (s : State) (v : Word) : (s.withRdata v).regionBase = s.regionBase := rfl
@[simp] theorem State.withRdata_regionSize (s : State) (v : Word) : (s.withRdata v).regionSize = s.regionSize := rfl
@[simp] theorem State.withRdata_hdrId (s : State) (v : Word) : (s.withRdata v).hdrId = s.hdrId := rfl
@[simp] theorem State.withRdata_hdrLen (s : State) (v : Word) : (s.withRdata v).hdrLen = s.hdrLen := rfl
@[simp] theorem State.withRdata_expected (s : State) (v : Word) : (s.withRdata v).expected = s.expected := rfl
@[simp] theorem State.withRdata_computed (s : State) (v : Word) : (s.withRdata v).computed = s.computed := rfl
@[simp] theorem State.withRdata_argOffset (s : State) (v : Word) : (s.withRdata v).argOffset = s.argOffset := rfl
@[simp] theorem State.withRdata_argSize (s : State) (v : Word) : (s.withRdata v).argSize = s.argSize := rfl
@[simp] theorem State.withRdata_argDest (s : State) (v : Word) : (s.withRdata v).argDest = s.argDest := rfl
@[simp] theorem State.withRdata_rdata (s : State) (v : Word) : (s.withRdata v).rdata = v := rfl
@[simp] theorem State.withRdata_storage (s : State) (v : Word) : (s.withRdata v).storage = s.storage := rfl
@[simp] theorem State.withRdata_dest (s : State) (v : Word) : (s.withRdata v).dest = s.dest := rfl
@[simp] theorem State.withRdata_platform (s : State) (v : Word) : (s.withRdata v).platform = s.platform := rfl
@[simp] theorem State.withRdata_busFault (s : State) (v : Word) : (s.withRdata v).busFault = s.busFault := rfl
@[simp] theorem State.withRdata_history (s : State) (v : Word) : (s.withRdata v).history = s.history := rfl
@[simp] theorem State.withRdata_pending (s : State) (v : Word) : (s.withRdata v).pending = s.pending := rfl
@[simp] theorem State.withRdata_response (s : State) (v : Word) : (s.withRdata v).response = s.response := rfl
@[simp] theorem State.withRdata_freeCount (s : State) (v : Word) : (s.withRdata v).freeCount = s.freeCount := rfl

/-! ### `State.withVresult` -/

@[simp] theorem State.withVresult_vresult (s : State) (v : VResult) : (s.withVresult v).vresult = v := rfl
@[simp] theorem State.withVresult_cerr (s : State) (v : VResult) : (s.withVresult v).cerr = s.cerr := rfl
@[simp] theorem State.withVresult_crcState (s : State) (v : VResult) : (s.withVresult v).crcState = s.crcState := rfl
@[simp] theorem State.withVresult_regionBase (s : State) (v : VResult) : (s.withVresult v).regionBase = s.regionBase := rfl
@[simp] theorem State.withVresult_regionSize (s : State) (v : VResult) : (s.withVresult v).regionSize = s.regionSize := rfl
@[simp] theorem State.withVresult_hdrId (s : State) (v : VResult) : (s.withVresult v).hdrId = s.hdrId := rfl
@[simp] theorem State.withVresult_hdrLen (s : State) (v : VResult) : (s.withVresult v).hdrLen = s.hdrLen := rfl
@[simp] theorem State.withVresult_expected (s : State) (v : VResult) : (s.withVresult v).expected = s.expected := rfl
@[simp] theorem State.withVresult_computed (s : State) (v : VResult) : (s.withVresult v).computed = s.computed := rfl
@[simp] theorem State.withVresult_argOffset (s : State) (v : VResult) : (s.withVresult v).argOffset = s.argOffset := rfl
@[simp] theorem State.withVresult_argSize (s : State) (v : VResult) : (s.withVresult v).argSize = s.argSize := rfl
@[simp] theorem State.withVresult_argDest (s : State) (v : VResult) : (s.withVresult v).argDest = s.argDest := rfl
@[simp] theorem State.withVresult_rdata (s : State) (v : VResult) : (s.withVresult v).rdata = s.rdata := rfl
@[simp] theorem State.withVresult_storage (s : State) (v : VResult) : (s.withVresult v).storage = s.storage := rfl
@[simp] theorem State.withVresult_dest (s : State) (v : VResult) : (s.withVresult v).dest = s.dest := rfl
@[simp] theorem State.withVresult_platform (s : State) (v : VResult) : (s.withVresult v).platform = s.platform := rfl
@[simp] theorem State.withVresult_busFault (s : State) (v : VResult) : (s.withVresult v).busFault = s.busFault := rfl
@[simp] theorem State.withVresult_history (s : State) (v : VResult) : (s.withVresult v).history = s.history := rfl
@[simp] theorem State.withVresult_pending (s : State) (v : VResult) : (s.withVresult v).pending = s.pending := rfl
@[simp] theorem State.withVresult_response (s : State) (v : VResult) : (s.withVresult v).response = s.response := rfl
@[simp] theorem State.withVresult_freeCount (s : State) (v : VResult) : (s.withVresult v).freeCount = s.freeCount := rfl

/-! ### `State.destWritten` -/

@[simp] theorem State.destWritten_vresult (s : State) (a : Addr) (v : Byte) : (s.destWritten a v).vresult = s.vresult := rfl
@[simp] theorem State.destWritten_cerr (s : State) (a : Addr) (v : Byte) : (s.destWritten a v).cerr = s.cerr := rfl
@[simp] theorem State.destWritten_crcState (s : State) (a : Addr) (v : Byte) : (s.destWritten a v).crcState = s.crcState := rfl
@[simp] theorem State.destWritten_regionBase (s : State) (a : Addr) (v : Byte) : (s.destWritten a v).regionBase = s.regionBase := rfl
@[simp] theorem State.destWritten_regionSize (s : State) (a : Addr) (v : Byte) : (s.destWritten a v).regionSize = s.regionSize := rfl
@[simp] theorem State.destWritten_hdrId (s : State) (a : Addr) (v : Byte) : (s.destWritten a v).hdrId = s.hdrId := rfl
@[simp] theorem State.destWritten_hdrLen (s : State) (a : Addr) (v : Byte) : (s.destWritten a v).hdrLen = s.hdrLen := rfl
@[simp] theorem State.destWritten_expected (s : State) (a : Addr) (v : Byte) : (s.destWritten a v).expected = s.expected := rfl
@[simp] theorem State.destWritten_computed (s : State) (a : Addr) (v : Byte) : (s.destWritten a v).computed = s.computed := rfl
@[simp] theorem State.destWritten_argOffset (s : State) (a : Addr) (v : Byte) : (s.destWritten a v).argOffset = s.argOffset := rfl
@[simp] theorem State.destWritten_argSize (s : State) (a : Addr) (v : Byte) : (s.destWritten a v).argSize = s.argSize := rfl
@[simp] theorem State.destWritten_argDest (s : State) (a : Addr) (v : Byte) : (s.destWritten a v).argDest = s.argDest := rfl
@[simp] theorem State.destWritten_rdata (s : State) (a : Addr) (v : Byte) : (s.destWritten a v).rdata = s.rdata := rfl
@[simp] theorem State.destWritten_storage (s : State) (a : Addr) (v : Byte) : (s.destWritten a v).storage = s.storage := rfl
@[simp] theorem State.destWritten_dest (s : State) (a : Addr) (v : Byte) : (s.destWritten a v).dest = s.dest.put a.toNat v := rfl
@[simp] theorem State.destWritten_platform (s : State) (a : Addr) (v : Byte) : (s.destWritten a v).platform = s.platform := rfl
@[simp] theorem State.destWritten_busFault (s : State) (a : Addr) (v : Byte) : (s.destWritten a v).busFault = s.busFault := rfl
@[simp] theorem State.destWritten_history (s : State) (a : Addr) (v : Byte) : (s.destWritten a v).history = .destWrite a v :: s.history := rfl
@[simp] theorem State.destWritten_pending (s : State) (a : Addr) (v : Byte) : (s.destWritten a v).pending = s.pending := rfl
@[simp] theorem State.destWritten_response (s : State) (a : Addr) (v : Byte) : (s.destWritten a v).response = s.response := rfl
@[simp] theorem State.destWritten_freeCount (s : State) (a : Addr) (v : Byte) : (s.destWritten a v).freeCount = s.freeCount := rfl

/-! ### `State.complete` -/

@[simp] theorem State.complete_vresult (s : State) (c : CErr) : (s.complete c).vresult = s.vresult := rfl
@[simp] theorem State.complete_cerr (s : State) (c : CErr) : (s.complete c).cerr = c := rfl
@[simp] theorem State.complete_crcState (s : State) (c : CErr) : (s.complete c).crcState = s.crcState := rfl
@[simp] theorem State.complete_regionBase (s : State) (c : CErr) : (s.complete c).regionBase = s.regionBase := rfl
@[simp] theorem State.complete_regionSize (s : State) (c : CErr) : (s.complete c).regionSize = s.regionSize := rfl
@[simp] theorem State.complete_hdrId (s : State) (c : CErr) : (s.complete c).hdrId = s.hdrId := rfl
@[simp] theorem State.complete_hdrLen (s : State) (c : CErr) : (s.complete c).hdrLen = s.hdrLen := rfl
@[simp] theorem State.complete_expected (s : State) (c : CErr) : (s.complete c).expected = s.expected := rfl
@[simp] theorem State.complete_computed (s : State) (c : CErr) : (s.complete c).computed = s.computed := rfl
@[simp] theorem State.complete_argOffset (s : State) (c : CErr) : (s.complete c).argOffset = s.argOffset := rfl
@[simp] theorem State.complete_argSize (s : State) (c : CErr) : (s.complete c).argSize = s.argSize := rfl
@[simp] theorem State.complete_argDest (s : State) (c : CErr) : (s.complete c).argDest = s.argDest := rfl
@[simp] theorem State.complete_rdata (s : State) (c : CErr) : (s.complete c).rdata = s.rdata := rfl
@[simp] theorem State.complete_storage (s : State) (c : CErr) : (s.complete c).storage = s.storage := rfl
@[simp] theorem State.complete_dest (s : State) (c : CErr) : (s.complete c).dest = s.dest := rfl
@[simp] theorem State.complete_platform (s : State) (c : CErr) : (s.complete c).platform = s.platform := rfl
@[simp] theorem State.complete_busFault (s : State) (c : CErr) : (s.complete c).busFault = s.busFault := rfl
@[simp] theorem State.complete_history (s : State) (c : CErr) : (s.complete c).history = s.history := rfl
@[simp] theorem State.complete_pending (s : State) (c : CErr) : (s.complete c).pending = s.pending := rfl
@[simp] theorem State.complete_response (s : State) (c : CErr) : (s.complete c).response = .writeDone := rfl
@[simp] theorem State.complete_freeCount (s : State) (c : CErr) : (s.complete c).freeCount = s.freeCount := rfl

/-! ### `State.answered` -/

@[simp] theorem State.answered_vresult (s : State) (off : Nat) (v : Word) : (s.answered off v).vresult = s.vresult := rfl
@[simp] theorem State.answered_cerr (s : State) (off : Nat) (v : Word) : (s.answered off v).cerr = s.cerr := rfl
@[simp] theorem State.answered_crcState (s : State) (off : Nat) (v : Word) : (s.answered off v).crcState = s.crcState := rfl
@[simp] theorem State.answered_regionBase (s : State) (off : Nat) (v : Word) : (s.answered off v).regionBase = s.regionBase := rfl
@[simp] theorem State.answered_regionSize (s : State) (off : Nat) (v : Word) : (s.answered off v).regionSize = s.regionSize := rfl
@[simp] theorem State.answered_hdrId (s : State) (off : Nat) (v : Word) : (s.answered off v).hdrId = s.hdrId := rfl
@[simp] theorem State.answered_hdrLen (s : State) (off : Nat) (v : Word) : (s.answered off v).hdrLen = s.hdrLen := rfl
@[simp] theorem State.answered_expected (s : State) (off : Nat) (v : Word) : (s.answered off v).expected = s.expected := rfl
@[simp] theorem State.answered_computed (s : State) (off : Nat) (v : Word) : (s.answered off v).computed = s.computed := rfl
@[simp] theorem State.answered_argOffset (s : State) (off : Nat) (v : Word) : (s.answered off v).argOffset = s.argOffset := rfl
@[simp] theorem State.answered_argSize (s : State) (off : Nat) (v : Word) : (s.answered off v).argSize = s.argSize := rfl
@[simp] theorem State.answered_argDest (s : State) (off : Nat) (v : Word) : (s.answered off v).argDest = s.argDest := rfl
@[simp] theorem State.answered_rdata (s : State) (off : Nat) (v : Word) : (s.answered off v).rdata = s.rdata := rfl
@[simp] theorem State.answered_storage (s : State) (off : Nat) (v : Word) : (s.answered off v).storage = s.storage := rfl
@[simp] theorem State.answered_dest (s : State) (off : Nat) (v : Word) : (s.answered off v).dest = s.dest := rfl
@[simp] theorem State.answered_platform (s : State) (off : Nat) (v : Word) : (s.answered off v).platform = s.platform := rfl
@[simp] theorem State.answered_busFault (s : State) (off : Nat) (v : Word) : (s.answered off v).busFault = s.busFault := rfl
@[simp] theorem State.answered_history (s : State) (off : Nat) (v : Word) : (s.answered off v).history = .regRead off v :: s.history := rfl
@[simp] theorem State.answered_pending (s : State) (off : Nat) (v : Word) : (s.answered off v).pending = s.pending := rfl
@[simp] theorem State.answered_response (s : State) (off : Nat) (v : Word) : (s.answered off v).response = .readData v := rfl
@[simp] theorem State.answered_freeCount (s : State) (off : Nat) (v : Word) : (s.answered off v).freeCount = s.freeCount := rfl

/-! ### `State.accepted` -/

@[simp] theorem State.accepted_vresult (s : State) (off : Nat) (v : Word) : (s.accepted off v).vresult = s.vresult := rfl
@[simp] theorem State.accepted_cerr (s : State) (off : Nat) (v : Word) : (s.accepted off v).cerr = s.cerr := rfl
@[simp] theorem State.accepted_crcState (s : State) (off : Nat) (v : Word) : (s.accepted off v).crcState = s.crcState := rfl
@[simp] theorem State.accepted_regionBase (s : State) (off : Nat) (v : Word) : (s.accepted off v).regionBase = s.regionBase := rfl
@[simp] theorem State.accepted_regionSize (s : State) (off : Nat) (v : Word) : (s.accepted off v).regionSize = s.regionSize := rfl
@[simp] theorem State.accepted_hdrId (s : State) (off : Nat) (v : Word) : (s.accepted off v).hdrId = s.hdrId := rfl
@[simp] theorem State.accepted_hdrLen (s : State) (off : Nat) (v : Word) : (s.accepted off v).hdrLen = s.hdrLen := rfl
@[simp] theorem State.accepted_expected (s : State) (off : Nat) (v : Word) : (s.accepted off v).expected = s.expected := rfl
@[simp] theorem State.accepted_computed (s : State) (off : Nat) (v : Word) : (s.accepted off v).computed = s.computed := rfl
@[simp] theorem State.accepted_argOffset (s : State) (off : Nat) (v : Word) : (s.accepted off v).argOffset = s.argOffset := rfl
@[simp] theorem State.accepted_argSize (s : State) (off : Nat) (v : Word) : (s.accepted off v).argSize = s.argSize := rfl
@[simp] theorem State.accepted_argDest (s : State) (off : Nat) (v : Word) : (s.accepted off v).argDest = s.argDest := rfl
@[simp] theorem State.accepted_rdata (s : State) (off : Nat) (v : Word) : (s.accepted off v).rdata = s.rdata := rfl
@[simp] theorem State.accepted_storage (s : State) (off : Nat) (v : Word) : (s.accepted off v).storage = s.storage := rfl
@[simp] theorem State.accepted_dest (s : State) (off : Nat) (v : Word) : (s.accepted off v).dest = s.dest := rfl
@[simp] theorem State.accepted_platform (s : State) (off : Nat) (v : Word) : (s.accepted off v).platform = s.platform := rfl
@[simp] theorem State.accepted_busFault (s : State) (off : Nat) (v : Word) : (s.accepted off v).busFault = s.busFault := rfl
@[simp] theorem State.accepted_history (s : State) (off : Nat) (v : Word) : (s.accepted off v).history = .regWrite off v :: s.history := rfl
@[simp] theorem State.accepted_pending (s : State) (off : Nat) (v : Word) : (s.accepted off v).pending = s.pending := rfl
@[simp] theorem State.accepted_response (s : State) (off : Nat) (v : Word) : (s.accepted off v).response = .writeDone := rfl
@[simp] theorem State.accepted_freeCount (s : State) (off : Nat) (v : Word) : (s.accepted off v).freeCount = s.freeCount := rfl

/-! ### `State.readErrored` -/

@[simp] theorem State.readErrored_vresult (s : State) (off : Nat) (v : Word) : (s.readErrored off v).vresult = s.vresult := rfl
@[simp] theorem State.readErrored_cerr (s : State) (off : Nat) (v : Word) : (s.readErrored off v).cerr = s.cerr := rfl
@[simp] theorem State.readErrored_crcState (s : State) (off : Nat) (v : Word) : (s.readErrored off v).crcState = s.crcState := rfl
@[simp] theorem State.readErrored_regionBase (s : State) (off : Nat) (v : Word) : (s.readErrored off v).regionBase = s.regionBase := rfl
@[simp] theorem State.readErrored_regionSize (s : State) (off : Nat) (v : Word) : (s.readErrored off v).regionSize = s.regionSize := rfl
@[simp] theorem State.readErrored_hdrId (s : State) (off : Nat) (v : Word) : (s.readErrored off v).hdrId = s.hdrId := rfl
@[simp] theorem State.readErrored_hdrLen (s : State) (off : Nat) (v : Word) : (s.readErrored off v).hdrLen = s.hdrLen := rfl
@[simp] theorem State.readErrored_expected (s : State) (off : Nat) (v : Word) : (s.readErrored off v).expected = s.expected := rfl
@[simp] theorem State.readErrored_computed (s : State) (off : Nat) (v : Word) : (s.readErrored off v).computed = s.computed := rfl
@[simp] theorem State.readErrored_argOffset (s : State) (off : Nat) (v : Word) : (s.readErrored off v).argOffset = s.argOffset := rfl
@[simp] theorem State.readErrored_argSize (s : State) (off : Nat) (v : Word) : (s.readErrored off v).argSize = s.argSize := rfl
@[simp] theorem State.readErrored_argDest (s : State) (off : Nat) (v : Word) : (s.readErrored off v).argDest = s.argDest := rfl
@[simp] theorem State.readErrored_rdata (s : State) (off : Nat) (v : Word) : (s.readErrored off v).rdata = s.rdata := rfl
@[simp] theorem State.readErrored_storage (s : State) (off : Nat) (v : Word) : (s.readErrored off v).storage = s.storage := rfl
@[simp] theorem State.readErrored_dest (s : State) (off : Nat) (v : Word) : (s.readErrored off v).dest = s.dest := rfl
@[simp] theorem State.readErrored_platform (s : State) (off : Nat) (v : Word) : (s.readErrored off v).platform = s.platform := rfl
@[simp] theorem State.readErrored_busFault (s : State) (off : Nat) (v : Word) : (s.readErrored off v).busFault = true := rfl
@[simp] theorem State.readErrored_history (s : State) (off : Nat) (v : Word) : (s.readErrored off v).history = .regRead off v :: s.history := rfl
@[simp] theorem State.readErrored_pending (s : State) (off : Nat) (v : Word) : (s.readErrored off v).pending = s.pending := rfl
@[simp] theorem State.readErrored_response (s : State) (off : Nat) (v : Word) : (s.readErrored off v).response = .readError v := rfl
@[simp] theorem State.readErrored_freeCount (s : State) (off : Nat) (v : Word) : (s.readErrored off v).freeCount = s.freeCount + 1 := rfl

/-! ### `State.writeErrored` -/

@[simp] theorem State.writeErrored_vresult (s : State) (off : Nat) (v : Word) : (s.writeErrored off v).vresult = s.vresult := rfl
@[simp] theorem State.writeErrored_cerr (s : State) (off : Nat) (v : Word) : (s.writeErrored off v).cerr = s.cerr := rfl
@[simp] theorem State.writeErrored_crcState (s : State) (off : Nat) (v : Word) : (s.writeErrored off v).crcState = s.crcState := rfl
@[simp] theorem State.writeErrored_regionBase (s : State) (off : Nat) (v : Word) : (s.writeErrored off v).regionBase = s.regionBase := rfl
@[simp] theorem State.writeErrored_regionSize (s : State) (off : Nat) (v : Word) : (s.writeErrored off v).regionSize = s.regionSize := rfl
@[simp] theorem State.writeErrored_hdrId (s : State) (off : Nat) (v : Word) : (s.writeErrored off v).hdrId = s.hdrId := rfl
@[simp] theorem State.writeErrored_hdrLen (s : State) (off : Nat) (v : Word) : (s.writeErrored off v).hdrLen = s.hdrLen := rfl
@[simp] theorem State.writeErrored_expected (s : State) (off : Nat) (v : Word) : (s.writeErrored off v).expected = s.expected := rfl
@[simp] theorem State.writeErrored_computed (s : State) (off : Nat) (v : Word) : (s.writeErrored off v).computed = s.computed := rfl
@[simp] theorem State.writeErrored_argOffset (s : State) (off : Nat) (v : Word) : (s.writeErrored off v).argOffset = s.argOffset := rfl
@[simp] theorem State.writeErrored_argSize (s : State) (off : Nat) (v : Word) : (s.writeErrored off v).argSize = s.argSize := rfl
@[simp] theorem State.writeErrored_argDest (s : State) (off : Nat) (v : Word) : (s.writeErrored off v).argDest = s.argDest := rfl
@[simp] theorem State.writeErrored_rdata (s : State) (off : Nat) (v : Word) : (s.writeErrored off v).rdata = s.rdata := rfl
@[simp] theorem State.writeErrored_storage (s : State) (off : Nat) (v : Word) : (s.writeErrored off v).storage = s.storage := rfl
@[simp] theorem State.writeErrored_dest (s : State) (off : Nat) (v : Word) : (s.writeErrored off v).dest = s.dest := rfl
@[simp] theorem State.writeErrored_platform (s : State) (off : Nat) (v : Word) : (s.writeErrored off v).platform = s.platform := rfl
@[simp] theorem State.writeErrored_busFault (s : State) (off : Nat) (v : Word) : (s.writeErrored off v).busFault = true := rfl
@[simp] theorem State.writeErrored_history (s : State) (off : Nat) (v : Word) : (s.writeErrored off v).history = .regWrite off v :: s.history := rfl
@[simp] theorem State.writeErrored_pending (s : State) (off : Nat) (v : Word) : (s.writeErrored off v).pending = s.pending := rfl
@[simp] theorem State.writeErrored_response (s : State) (off : Nat) (v : Word) : (s.writeErrored off v).response = .writeError := rfl
@[simp] theorem State.writeErrored_freeCount (s : State) (off : Nat) (v : Word) : (s.writeErrored off v).freeCount = s.freeCount := rfl

/-! ### `State.hardwareReset` -/

@[simp] theorem State.hardwareReset_vresult (s : State) : (s.hardwareReset).vresult = .none := rfl
@[simp] theorem State.hardwareReset_cerr (s : State) : (s.hardwareReset).cerr = .none := rfl
@[simp] theorem State.hardwareReset_crcState (s : State) : (s.hardwareReset).crcState = Config.crcInit := rfl
@[simp] theorem State.hardwareReset_regionBase (s : State) : (s.hardwareReset).regionBase = 0 := rfl
@[simp] theorem State.hardwareReset_regionSize (s : State) : (s.hardwareReset).regionSize = 0 := rfl
@[simp] theorem State.hardwareReset_hdrId (s : State) : (s.hardwareReset).hdrId = ({ tag := 0, major := 0, minor := 0 } : HdrId) := rfl
@[simp] theorem State.hardwareReset_hdrLen (s : State) : (s.hardwareReset).hdrLen = 0 := rfl
@[simp] theorem State.hardwareReset_expected (s : State) : (s.hardwareReset).expected = 0 := rfl
@[simp] theorem State.hardwareReset_computed (s : State) : (s.hardwareReset).computed = 0 := rfl
@[simp] theorem State.hardwareReset_argOffset (s : State) : (s.hardwareReset).argOffset = 0 := rfl
@[simp] theorem State.hardwareReset_argSize (s : State) : (s.hardwareReset).argSize = 0 := rfl
@[simp] theorem State.hardwareReset_argDest (s : State) : (s.hardwareReset).argDest = 0 := rfl
@[simp] theorem State.hardwareReset_rdata (s : State) : (s.hardwareReset).rdata = 0 := rfl
@[simp] theorem State.hardwareReset_storage (s : State) : (s.hardwareReset).storage = s.storage := rfl
@[simp] theorem State.hardwareReset_dest (s : State) : (s.hardwareReset).dest = s.dest := rfl
@[simp] theorem State.hardwareReset_platform (s : State) : (s.hardwareReset).platform = s.platform := rfl
@[simp] theorem State.hardwareReset_busFault (s : State) : (s.hardwareReset).busFault = s.busFault := rfl
@[simp] theorem State.hardwareReset_history (s : State) : (s.hardwareReset).history = s.history := rfl
@[simp] theorem State.hardwareReset_pending (s : State) : (s.hardwareReset).pending = s.pending := rfl
@[simp] theorem State.hardwareReset_response (s : State) : (s.hardwareReset).response = .none := rfl
@[simp] theorem State.hardwareReset_freeCount (s : State) : (s.hardwareReset).freeCount = s.freeCount := rfl

/-! ### `State.clearView` -/

@[simp] theorem State.clearView_vresult (s : State) : (s.clearView).vresult = .none := rfl
@[simp] theorem State.clearView_cerr (s : State) : (s.clearView).cerr = s.cerr := rfl
@[simp] theorem State.clearView_crcState (s : State) : (s.clearView).crcState = s.crcState := rfl
@[simp] theorem State.clearView_regionBase (s : State) : (s.clearView).regionBase = s.regionBase := rfl
@[simp] theorem State.clearView_regionSize (s : State) : (s.clearView).regionSize = s.regionSize := rfl
@[simp] theorem State.clearView_hdrId (s : State) : (s.clearView).hdrId = ({ tag := 0, major := 0, minor := 0 } : HdrId) := rfl
@[simp] theorem State.clearView_hdrLen (s : State) : (s.clearView).hdrLen = 0 := rfl
@[simp] theorem State.clearView_expected (s : State) : (s.clearView).expected = 0 := rfl
@[simp] theorem State.clearView_computed (s : State) : (s.clearView).computed = 0 := rfl
@[simp] theorem State.clearView_argOffset (s : State) : (s.clearView).argOffset = s.argOffset := rfl
@[simp] theorem State.clearView_argSize (s : State) : (s.clearView).argSize = s.argSize := rfl
@[simp] theorem State.clearView_argDest (s : State) : (s.clearView).argDest = s.argDest := rfl
@[simp] theorem State.clearView_rdata (s : State) : (s.clearView).rdata = s.rdata := rfl
@[simp] theorem State.clearView_storage (s : State) : (s.clearView).storage = s.storage := rfl
@[simp] theorem State.clearView_dest (s : State) : (s.clearView).dest = s.dest := rfl
@[simp] theorem State.clearView_platform (s : State) : (s.clearView).platform = s.platform := rfl
@[simp] theorem State.clearView_busFault (s : State) : (s.clearView).busFault = s.busFault := rfl
@[simp] theorem State.clearView_history (s : State) : (s.clearView).history = s.history := rfl
@[simp] theorem State.clearView_pending (s : State) : (s.clearView).pending = s.pending := rfl
@[simp] theorem State.clearView_response (s : State) : (s.clearView).response = s.response := rfl
@[simp] theorem State.clearView_freeCount (s : State) : (s.clearView).freeCount = s.freeCount := rfl

/-! ### `State.latchHeader` -/

@[simp] theorem State.latchHeader_vresult (s : State) (h : List Byte) : (s.latchHeader h).vresult = s.vresult := rfl
@[simp] theorem State.latchHeader_cerr (s : State) (h : List Byte) : (s.latchHeader h).cerr = s.cerr := rfl
@[simp] theorem State.latchHeader_crcState (s : State) (h : List Byte) : (s.latchHeader h).crcState = s.crcState := rfl
@[simp] theorem State.latchHeader_regionBase (s : State) (h : List Byte) : (s.latchHeader h).regionBase = s.regionBase := rfl
@[simp] theorem State.latchHeader_regionSize (s : State) (h : List Byte) : (s.latchHeader h).regionSize = s.regionSize := rfl
@[simp] theorem State.latchHeader_hdrId (s : State) (h : List Byte) : (s.latchHeader h).hdrId = HdrId.ofBytes h := rfl
@[simp] theorem State.latchHeader_hdrLen (s : State) (h : List Byte) : (s.latchHeader h).hdrLen = leHalf (h.drop 3) := rfl
@[simp] theorem State.latchHeader_expected (s : State) (h : List Byte) : (s.latchHeader h).expected = s.expected := rfl
@[simp] theorem State.latchHeader_computed (s : State) (h : List Byte) : (s.latchHeader h).computed = s.computed := rfl
@[simp] theorem State.latchHeader_argOffset (s : State) (h : List Byte) : (s.latchHeader h).argOffset = s.argOffset := rfl
@[simp] theorem State.latchHeader_argSize (s : State) (h : List Byte) : (s.latchHeader h).argSize = s.argSize := rfl
@[simp] theorem State.latchHeader_argDest (s : State) (h : List Byte) : (s.latchHeader h).argDest = s.argDest := rfl
@[simp] theorem State.latchHeader_rdata (s : State) (h : List Byte) : (s.latchHeader h).rdata = s.rdata := rfl
@[simp] theorem State.latchHeader_storage (s : State) (h : List Byte) : (s.latchHeader h).storage = s.storage := rfl
@[simp] theorem State.latchHeader_dest (s : State) (h : List Byte) : (s.latchHeader h).dest = s.dest := rfl
@[simp] theorem State.latchHeader_platform (s : State) (h : List Byte) : (s.latchHeader h).platform = s.platform := rfl
@[simp] theorem State.latchHeader_busFault (s : State) (h : List Byte) : (s.latchHeader h).busFault = s.busFault := rfl
@[simp] theorem State.latchHeader_history (s : State) (h : List Byte) : (s.latchHeader h).history = s.history := rfl
@[simp] theorem State.latchHeader_pending (s : State) (h : List Byte) : (s.latchHeader h).pending = s.pending := rfl
@[simp] theorem State.latchHeader_response (s : State) (h : List Byte) : (s.latchHeader h).response = s.response := rfl
@[simp] theorem State.latchHeader_freeCount (s : State) (h : List Byte) : (s.latchHeader h).freeCount = s.freeCount := rfl

/-! ### `State.latchChecksums` -/

@[simp] theorem State.latchChecksums_vresult (s : State) (c : List Byte) : (s.latchChecksums c).vresult = s.vresult := rfl
@[simp] theorem State.latchChecksums_cerr (s : State) (c : List Byte) : (s.latchChecksums c).cerr = s.cerr := rfl
@[simp] theorem State.latchChecksums_crcState (s : State) (c : List Byte) : (s.latchChecksums c).crcState = s.crcState := rfl
@[simp] theorem State.latchChecksums_regionBase (s : State) (c : List Byte) : (s.latchChecksums c).regionBase = s.regionBase := rfl
@[simp] theorem State.latchChecksums_regionSize (s : State) (c : List Byte) : (s.latchChecksums c).regionSize = s.regionSize := rfl
@[simp] theorem State.latchChecksums_hdrId (s : State) (c : List Byte) : (s.latchChecksums c).hdrId = s.hdrId := rfl
@[simp] theorem State.latchChecksums_hdrLen (s : State) (c : List Byte) : (s.latchChecksums c).hdrLen = s.hdrLen := rfl
@[simp] theorem State.latchChecksums_expected (s : State) (c : List Byte) : (s.latchChecksums c).expected = leWord c := rfl
@[simp] theorem State.latchChecksums_computed (s : State) (c : List Byte) : (s.latchChecksums c).computed = crcFinalize s.crcState := rfl
@[simp] theorem State.latchChecksums_argOffset (s : State) (c : List Byte) : (s.latchChecksums c).argOffset = s.argOffset := rfl
@[simp] theorem State.latchChecksums_argSize (s : State) (c : List Byte) : (s.latchChecksums c).argSize = s.argSize := rfl
@[simp] theorem State.latchChecksums_argDest (s : State) (c : List Byte) : (s.latchChecksums c).argDest = s.argDest := rfl
@[simp] theorem State.latchChecksums_rdata (s : State) (c : List Byte) : (s.latchChecksums c).rdata = s.rdata := rfl
@[simp] theorem State.latchChecksums_storage (s : State) (c : List Byte) : (s.latchChecksums c).storage = s.storage := rfl
@[simp] theorem State.latchChecksums_dest (s : State) (c : List Byte) : (s.latchChecksums c).dest = s.dest := rfl
@[simp] theorem State.latchChecksums_platform (s : State) (c : List Byte) : (s.latchChecksums c).platform = s.platform := rfl
@[simp] theorem State.latchChecksums_busFault (s : State) (c : List Byte) : (s.latchChecksums c).busFault = s.busFault := rfl
@[simp] theorem State.latchChecksums_history (s : State) (c : List Byte) : (s.latchChecksums c).history = s.history := rfl
@[simp] theorem State.latchChecksums_pending (s : State) (c : List Byte) : (s.latchChecksums c).pending = s.pending := rfl
@[simp] theorem State.latchChecksums_response (s : State) (c : List Byte) : (s.latchChecksums c).response = s.response := rfl
@[simp] theorem State.latchChecksums_freeCount (s : State) (c : List Byte) : (s.latchChecksums c).freeCount = s.freeCount := rfl

/-! ### `State.writeReg`: what no register write changes -/

@[simp] theorem State.writeReg_vresult (s : State) (v : Word) (r : Reg) :
    (s.writeReg v r).vresult = s.vresult := by cases r <;> rfl
@[simp] theorem State.writeReg_cerr (s : State) (v : Word) (r : Reg) :
    (s.writeReg v r).cerr = s.cerr := by cases r <;> rfl
@[simp] theorem State.writeReg_crcState (s : State) (v : Word) (r : Reg) :
    (s.writeReg v r).crcState = s.crcState := by cases r <;> rfl
@[simp] theorem State.writeReg_hdrId (s : State) (v : Word) (r : Reg) :
    (s.writeReg v r).hdrId = s.hdrId := by cases r <;> rfl
@[simp] theorem State.writeReg_hdrLen (s : State) (v : Word) (r : Reg) :
    (s.writeReg v r).hdrLen = s.hdrLen := by cases r <;> rfl
@[simp] theorem State.writeReg_expected (s : State) (v : Word) (r : Reg) :
    (s.writeReg v r).expected = s.expected := by cases r <;> rfl
@[simp] theorem State.writeReg_computed (s : State) (v : Word) (r : Reg) :
    (s.writeReg v r).computed = s.computed := by cases r <;> rfl
@[simp] theorem State.writeReg_rdata (s : State) (v : Word) (r : Reg) :
    (s.writeReg v r).rdata = s.rdata := by cases r <;> rfl
@[simp] theorem State.writeReg_storage (s : State) (v : Word) (r : Reg) :
    (s.writeReg v r).storage = s.storage := by cases r <;> rfl
@[simp] theorem State.writeReg_dest (s : State) (v : Word) (r : Reg) :
    (s.writeReg v r).dest = s.dest := by cases r <;> rfl
@[simp] theorem State.writeReg_platform (s : State) (v : Word) (r : Reg) :
    (s.writeReg v r).platform = s.platform := by cases r <;> rfl
@[simp] theorem State.writeReg_busFault (s : State) (v : Word) (r : Reg) :
    (s.writeReg v r).busFault = s.busFault := by cases r <;> rfl
@[simp] theorem State.writeReg_history (s : State) (v : Word) (r : Reg) :
    (s.writeReg v r).history = s.history := by cases r <;> rfl
@[simp] theorem State.writeReg_pending (s : State) (v : Word) (r : Reg) :
    (s.writeReg v r).pending = s.pending := by cases r <;> rfl
@[simp] theorem State.writeReg_response (s : State) (v : Word) (r : Reg) :
    (s.writeReg v r).response = s.response := by cases r <;> rfl
@[simp] theorem State.writeReg_freeCount (s : State) (v : Word) (r : Reg) :
    (s.writeReg v r).freeCount = s.freeCount := by cases r <;> rfl

end Sys2Proof.Machine
end

