-- ==== Sys2Proof/Laws/Ops.lean ====
section
/-! SUPPORT. What each shared operation does, said once: the memory primitives and the loops over them,
in the forward direction (where the accesses are answered) and by cases (everything they can do). -/

namespace Sys2Proof.Machine
open Sys2Proof

/-! ### Sequencing -/

@[simp] theorem Reply.bind_done {α β : Type} (v : α) (s : State) (k : α → State → Reply β) :
    (Reply.done v s).bind k = k v s := rfl
@[simp] theorem Reply.bind_fault {α β : Type} (f : Fault) (k : α → State → Reply β) :
    (Reply.fault f : Reply α).bind k = .fault f := rfl
@[simp] theorem Reply.bind_refused {α β : Type} (r : Refusal) (k : α → State → Reply β) :
    (Reply.refused r : Reply α).bind k = .refused r := rfl
@[simp] theorem Reply.andThen_done {α : Type} (v : α) (s : State) (k : α → State → Result) :
    (Reply.done v s).andThen k = k v s := rfl
@[simp] theorem Reply.andThen_fault {α : Type} (f : Fault) (k : α → State → Result) :
    (Reply.fault f : Reply α).andThen k = .fault f := rfl
@[simp] theorem Reply.andThen_refused {α : Type} (r : Refusal) (k : α → State → Result) :
    (Reply.refused r : Reply α).andThen k = .refused r := rfl

/-! ### Events -/

@[simp] theorem withEvents_nil (s : State) : withEvents s [] = s := rfl

theorem withEvents_append (s : State) (es fs : List Event) :
    withEvents (withEvents s es) fs = withEvents s (es ++ fs) := by
  simp [withEvents]

theorem log_withEvents (s : State) (e : Event) (es : List Event) :
    withEvents (s.log e) es = withEvents s (e :: es) := by
  simp [withEvents, State.log]

@[simp] theorem length_readEvents (bs : List Byte) : ∀ a, (readEvents a bs).length = bs.length := by
  induction bs with
  | nil => exact fun _ => rfl
  | cons b bs ih => exact fun a => congrArg (· + 1) (ih _)

@[simp] theorem length_copyEvents (bs : List Byte) :
    ∀ a d, (copyEvents a d bs).length = 2 * bs.length := by
  induction bs with
  | nil => exact fun _ _ => rfl
  | cons b bs ih => intro a d; simp only [copyEvents, List.length_cons, ih]; omega

/-! ### `withEvents` -/

@[simp] theorem withEvents_vresult (s : State) (es : List Event) : (withEvents s es).vresult = s.vresult := rfl
@[simp] theorem withEvents_cerr (s : State) (es : List Event) : (withEvents s es).cerr = s.cerr := rfl
@[simp] theorem withEvents_crcState (s : State) (es : List Event) : (withEvents s es).crcState = s.crcState := rfl
@[simp] theorem withEvents_regionBase (s : State) (es : List Event) : (withEvents s es).regionBase = s.regionBase := rfl
@[simp] theorem withEvents_regionSize (s : State) (es : List Event) : (withEvents s es).regionSize = s.regionSize := rfl
@[simp] theorem withEvents_hdrId (s : State) (es : List Event) : (withEvents s es).hdrId = s.hdrId := rfl
@[simp] theorem withEvents_hdrLen (s : State) (es : List Event) : (withEvents s es).hdrLen = s.hdrLen := rfl
@[simp] theorem withEvents_expected (s : State) (es : List Event) : (withEvents s es).expected = s.expected := rfl
@[simp] theorem withEvents_computed (s : State) (es : List Event) : (withEvents s es).computed = s.computed := rfl
@[simp] theorem withEvents_argOffset (s : State) (es : List Event) : (withEvents s es).argOffset = s.argOffset := rfl
@[simp] theorem withEvents_argSize (s : State) (es : List Event) : (withEvents s es).argSize = s.argSize := rfl
@[simp] theorem withEvents_argDest (s : State) (es : List Event) : (withEvents s es).argDest = s.argDest := rfl
@[simp] theorem withEvents_rdata (s : State) (es : List Event) : (withEvents s es).rdata = s.rdata := rfl
@[simp] theorem withEvents_storage (s : State) (es : List Event) : (withEvents s es).storage = s.storage := rfl
@[simp] theorem withEvents_dest (s : State) (es : List Event) : (withEvents s es).dest = s.dest := rfl
@[simp] theorem withEvents_platform (s : State) (es : List Event) : (withEvents s es).platform = s.platform := rfl
@[simp] theorem withEvents_busFault (s : State) (es : List Event) : (withEvents s es).busFault = s.busFault := rfl
@[simp] theorem withEvents_history (s : State) (es : List Event) : (withEvents s es).history = es.reverse ++ s.history := rfl
@[simp] theorem withEvents_pending (s : State) (es : List Event) : (withEvents s es).pending = s.pending := rfl
@[simp] theorem withEvents_response (s : State) (es : List Event) : (withEvents s es).response = s.response := rfl
@[simp] theorem withEvents_freeCount (s : State) (es : List Event) : (withEvents s es).freeCount = s.freeCount := rfl

/-! ### Admission depends on the storage, the platform and the region registers alone -/

@[simp] theorem State.destAdmits_log (s : State) (e : Event) (a : Addr) :
    (s.log e).destAdmits a = s.destAdmits a := rfl
@[simp] theorem State.hitsStorage_log (s : State) (e : Event) (a : Addr) :
    (s.log e).hitsStorage a = s.hitsStorage a := rfl

/-! ### Addresses -/

theorem addr_succ (a : Addr) (i : Nat) : a + 1#32 + BitVec.ofNat 32 i = a + BitVec.ofNat 32 (i + 1) := by
  apply BitVec.eq_of_toNat_eq
  simp
  omega

@[simp] theorem addr_zero (a : Addr) : a + BitVec.ofNat 32 0 = a := by simp

theorem addr_add (a : Addr) (i j : Nat) :
    a + BitVec.ofNat 32 i + BitVec.ofNat 32 j = a + BitVec.ofNat 32 (i + j) := by
  apply BitVec.eq_of_toNat_eq
  simp
  omega

/-- Distinct positions below 2^32 have distinct addresses. -/
theorem addr_inj {a : Addr} {i j : Nat} (hi : i < 2 ^ 32) (hj : j < 2 ^ 32)
    (h : (a + BitVec.ofNat 32 i).toNat = (a + BitVec.ofNat 32 j).toNat) : i = j := by
  simp only [BitVec.toNat_add, BitVec.toNat_ofNat] at h
  omega

/-! ### The storage answering a sequence of bytes -/

@[simp] theorem answers_nil (m : Memory) (a : Addr) : Answers m a [] := by simp [Answers]

theorem answers_cons (m : Memory) (a : Addr) (b : Byte) (bs : List Byte) :
    Answers m a (b :: bs) ↔ m.get a.toNat = some b ∧ Answers m (a + 1#32) bs := by
  constructor
  · intro h
    refine ⟨by simpa using h 0 b rfl, fun i c hc => ?_⟩
    rw [addr_succ]
    exact h (i + 1) c (by simpa using hc)
  · rintro ⟨h0, h⟩ i c hc
    cases i with
    | zero => simp at hc; subst hc; simpa using h0
    | succ i => rw [← addr_succ]; exact h i c (by simpa using hc)

theorem answers_append (m : Memory) (a : Addr) (bs cs : List Byte) :
    Answers m a (bs ++ cs) ↔ Answers m a bs ∧ Answers m (a + BitVec.ofNat 32 bs.length) cs := by
  induction bs generalizing a with
  | nil => simp
  | cons b bs ih =>
    rw [List.cons_append, answers_cons, answers_cons, ih, addr_succ, and_assoc, List.length_cons]

theorem accepts_zero (s : State) (a : Addr) : Accepts s a 0 := by
  intro i h; omega

theorem accepts_succ (s : State) (a : Addr) (n : Nat) :
    Accepts s a (n + 1) ↔
      (s.destAdmits a = true ∧ s.hitsStorage a = false) ∧ Accepts s (a + 1#32) n := by
  constructor
  · intro h
    refine ⟨by simpa using h 0 (by omega), fun i hi => ?_⟩
    rw [addr_succ]
    exact h (i + 1) (by omega)
  · rintro ⟨h0, h⟩ i hi
    cases i with
    | zero => simpa using h0
    | succ i => rw [← addr_succ]; exact h i (by omega)

/-! ### The memory primitives -/

/-- Everything a storage read can do (R13, R70). -/
theorem memRead_cases (a : Addr) (s : State) :
    (∃ b, s.storage.get a.toNat = some b ∧ memRead a s = .done b (s.log (.storageRead a b))) ∨
    (s.storage.get a.toNat = none ∧ memRead a s = .fault (.storageStuck a s)) := by
  unfold memRead
  cases h : s.storage.get a.toNat with
  | none => exact .inr ⟨rfl, rfl⟩
  | some b => exact .inl ⟨b, rfl, rfl⟩

/-- Everything a destination write can do (R13, R70, R81). -/
theorem memWrite_cases (a : Addr) (v : Byte) (s : State) :
    (s.destAdmits a = true ∧ s.hitsStorage a = false ∧ memWrite a v s = .done () (s.destWritten a v)) ∨
    (s.destAdmits a = false ∧ memWrite a v s = .fault (.destStuck a s)) ∨
    (s.destAdmits a = true ∧ s.hitsStorage a = true ∧
      memWrite a v s = .refused (.destOverlapsStorage a s)) := by
  unfold memWrite
  cases s.destAdmits a <;> cases s.hitsStorage a <;> simp

/-! ### Reading bytes -/

theorem readBytes_of_answers (bs : List Byte) : ∀ (a : Addr) (s : State), Answers s.storage a bs →
    readBytes a bs.length s = .done bs (withEvents s (readEvents a bs)) := by
  induction bs with
  | nil => exact fun _ _ _ => rfl
  | cons b bs ih =>
    intro a s h
    obtain ⟨h0, h1⟩ := (answers_cons _ _ _ _).1 h
    simp only [List.length_cons, readBytes, memRead, h0, Reply.bind_done]
    rw [ih (a + 1#32) (s.log (.storageRead a b)) h1]
    simp [readEvents, log_withEvents]

/-- Everything reading `n` bytes can do: all are answered, or the first that is not stops it. -/
theorem readBytes_cases (n : Nat) : ∀ (a : Addr) (s : State),
    (∃ bs, bs.length = n ∧ Answers s.storage a bs ∧
      readBytes a n s = .done bs (withEvents s (readEvents a bs))) ∨
    (∃ bs, bs.length < n ∧ Answers s.storage a bs ∧
      s.storage.get (a + BitVec.ofNat 32 bs.length).toNat = none ∧
      readBytes a n s =
        .fault (.storageStuck (a + BitVec.ofNat 32 bs.length) (withEvents s (readEvents a bs)))) := by
  induction n with
  | zero => exact fun a s => .inl ⟨[], rfl, answers_nil _ _, rfl⟩
  | succ n ih =>
    intro a s
    rcases memRead_cases a s with ⟨b, hb, hr⟩ | ⟨hb, hr⟩
    · rcases ih (a + 1#32) (s.log (.storageRead a b)) with ⟨bs, hl, ha, h⟩ | ⟨bs, hl, ha, hn, h⟩
      · refine .inl ⟨b :: bs, by simp [hl], (answers_cons _ _ _ _).2 ⟨hb, ha⟩, ?_⟩
        simp [readBytes, hr, h, readEvents, log_withEvents]
      · refine .inr ⟨b :: bs, by simp [hl], (answers_cons _ _ _ _).2 ⟨hb, ha⟩, ?_, ?_⟩
        · rw [addr_succ] at hn; exact hn
        · rw [addr_succ] at h
          simp [readBytes, hr, h, readEvents, log_withEvents]
    · exact .inr ⟨[], by simp, answers_nil _ _, by simpa using hb, by simp [readBytes, hr, readEvents]⟩

/-! ### The CRC pass -/

/-- The state after a CRC pass over `bs` from `a`. -/
def crcPassed (s : State) (a : Addr) (bs : List Byte) : State :=
  withEvents (s.withCrc (crcRun s.crcState bs)) (readEvents a bs)

theorem crcPassed_cons (s : State) (a : Addr) (b : Byte) (bs : List Byte) :
    crcPassed ((s.log (.storageRead a b)).withCrc (crcUpdateByte s.crcState b)) (a + 1#32) bs =
      crcPassed s a (b :: bs) := by
  simp [crcPassed, withEvents, State.log, State.withCrc, readEvents, crcRun]

/-- Everything the CRC pass can do (R146, R70). -/
theorem crcPass_cases (n : Nat) : ∀ (a : Addr) (s : State),
    (∃ bs, bs.length = n ∧ Answers s.storage a bs ∧ crcPass a n s = .done () (crcPassed s a bs)) ∨
    (∃ bs, bs.length < n ∧ Answers s.storage a bs ∧
      s.storage.get (a + BitVec.ofNat 32 bs.length).toNat = none ∧
      crcPass a n s = .fault (.storageStuck (a + BitVec.ofNat 32 bs.length) (crcPassed s a bs))) := by
  induction n with
  | zero => exact fun a s => .inl ⟨[], rfl, answers_nil _ _, rfl⟩
  | succ n ih =>
    intro a s
    rcases memRead_cases a s with ⟨b, hb, hr⟩ | ⟨hb, hr⟩
    · rcases ih (a + 1#32) ((s.log (.storageRead a b)).withCrc (crcUpdateByte s.crcState b)) with
        ⟨bs, hl, ha, h⟩ | ⟨bs, hl, ha, hn, h⟩
      · refine .inl ⟨b :: bs, by simp [hl], (answers_cons _ _ _ _).2 ⟨hb, ha⟩, ?_⟩
        rw [crcPassed_cons] at h
        simp [crcPass, hr, h]
      · refine .inr ⟨b :: bs, by simp [hl], (answers_cons _ _ _ _).2 ⟨hb, ha⟩, ?_, ?_⟩
        · rw [addr_succ] at hn; exact hn
        · rw [addr_succ, crcPassed_cons] at h
          simp [crcPass, hr, h]
    · refine .inr ⟨[], by simp, answers_nil _ _, by simpa using hb, ?_⟩
      simp [crcPass, hr, crcPassed, State.withCrc, crcRun, readEvents]

/-! ### The byte copy -/

/-- The state after copying `bs` from `src` to `dst`. -/
def copied (s : State) (src dst : Addr) (bs : List Byte) : State :=
  withEvents { s with dest := s.dest.putBytes dst bs } (copyEvents src dst bs)

theorem copied_cons (s : State) (src dst : Addr) (b : Byte) (bs : List Byte) :
    copied ((s.log (.storageRead src b)).destWritten dst b) (src + 1#32) (dst + 1#32) bs =
      copied s src dst (b :: bs) := by
  simp [copied, State.destWritten, withEvents, State.log, copyEvents, Memory.putBytes]

theorem accepts_congr {s t : State} {a : Addr} {n : Nat} (hs : t.storage = s.storage)
    (hp : t.platform = s.platform) (hb : t.regionBase = s.regionBase)
    (hz : t.regionSize = s.regionSize) : Accepts t a n ↔ Accepts s a n := by
  simp [Accepts, State.destAdmits, State.hitsStorage, State.storageAdmits, hs, hp, hb, hz]

/-- Everything the byte copy can do (R172, R179, R70, R81). -/
theorem copyBytes_cases (n : Nat) : ∀ (src dst : Addr) (s : State),
    (∃ bs, bs.length = n ∧ Answers s.storage src bs ∧ Accepts s dst n ∧
      copyBytes src dst n s = .done () (copied s src dst bs)) ∨
    (∃ bs, bs.length < n ∧ Answers s.storage src bs ∧ Accepts s dst bs.length ∧
      s.storage.get (src + BitVec.ofNat 32 bs.length).toNat = none ∧
      copyBytes src dst n s =
        .fault (.storageStuck (src + BitVec.ofNat 32 bs.length) (copied s src dst bs))) ∨
    (∃ bs b, bs.length < n ∧ Answers s.storage src (bs ++ [b]) ∧ Accepts s dst bs.length ∧
      s.destAdmits (dst + BitVec.ofNat 32 bs.length) = false ∧
      copyBytes src dst n s =
        .fault (.destStuck (dst + BitVec.ofNat 32 bs.length)
          ((copied s src dst bs).log (.storageRead (src + BitVec.ofNat 32 bs.length) b)))) ∨
    (∃ bs b, bs.length < n ∧ Answers s.storage src (bs ++ [b]) ∧ Accepts s dst bs.length ∧
      s.destAdmits (dst + BitVec.ofNat 32 bs.length) = true ∧
      s.hitsStorage (dst + BitVec.ofNat 32 bs.length) = true ∧
      copyBytes src dst n s =
        .refused (.destOverlapsStorage (dst + BitVec.ofNat 32 bs.length)
          ((copied s src dst bs).log (.storageRead (src + BitVec.ofNat 32 bs.length) b)))) := by
  induction n with
  | zero => exact fun src dst s => .inl ⟨[], rfl, answers_nil _ _, accepts_zero _ _, rfl⟩
  | succ n ih =>
    intro src dst s
    rcases memRead_cases src s with ⟨b, hb, hr⟩ | ⟨hb, hr⟩
    · rcases memWrite_cases dst b (s.log (.storageRead src b)) with
        ⟨hd, hh, hw⟩ | ⟨hd, hw⟩ | ⟨hd, hh, hw⟩
      · have hc : ∀ k, Accepts ((s.log (.storageRead src b)).destWritten dst b) (dst + 1#32) k →
            Accepts s dst (k + 1) := fun k hk =>
          (accepts_succ _ _ _).2 ⟨⟨hd, hh⟩, (accepts_congr rfl rfl rfl rfl).1 hk⟩
        rcases ih (src + 1#32) (dst + 1#32) ((s.log (.storageRead src b)).destWritten dst b) with
          ⟨bs, hl, ha, hk, h⟩ | ⟨bs, hl, ha, hk, hn, h⟩ | ⟨bs, c, hl, ha, hk, hn, h⟩ |
          ⟨bs, c, hl, ha, hk, hn, hx, h⟩
        · refine .inl ⟨b :: bs, by simp [hl], (answers_cons _ _ _ _).2 ⟨hb, ha⟩, hc _ hk, ?_⟩
          rw [copied_cons] at h
          simp [copyBytes, hr, hw, h]
        · refine .inr (.inl ⟨b :: bs, by simp [hl], (answers_cons _ _ _ _).2 ⟨hb, ha⟩, hc _ hk, ?_, ?_⟩)
          · rw [addr_succ] at hn; exact hn
          · rw [addr_succ, copied_cons] at h
            simp [copyBytes, hr, hw, h]
        · refine .inr (.inr (.inl ⟨b :: bs, c, by simp [hl], (answers_cons _ _ _ _).2 ⟨hb, ha⟩,
            hc _ hk, ?_, ?_⟩))
          · rw [addr_succ] at hn; exact hn
          · rw [addr_succ, addr_succ, copied_cons] at h
            simp [copyBytes, hr, hw, h]
        · refine .inr (.inr (.inr ⟨b :: bs, c, by simp [hl], (answers_cons _ _ _ _).2 ⟨hb, ha⟩,
            hc _ hk, ?_, ?_, ?_⟩))
          · rw [addr_succ] at hn; exact hn
          · rw [addr_succ] at hx; exact hx
          · rw [addr_succ, addr_succ, copied_cons] at h
            simp [copyBytes, hr, hw, h]
      · refine .inr (.inr (.inl ⟨[], b, by simp, ?_, accepts_zero _ _, by simpa using hd, ?_⟩))
        · exact (answers_cons _ _ _ _).2 ⟨hb, answers_nil _ _⟩
        · simp [copyBytes, hr, hw, copied, copyEvents, Memory.putBytes]
      · refine .inr (.inr (.inr ⟨[], b, by simp, ?_, accepts_zero _ _, by simpa using hd,
          by simpa using hh, ?_⟩))
        · exact (answers_cons _ _ _ _).2 ⟨hb, answers_nil _ _⟩
        · simp [copyBytes, hr, hw, copied, copyEvents, Memory.putBytes]
    · refine .inr (.inl ⟨[], by simp, answers_nil _ _, accepts_zero _ _, by simpa using hb, ?_⟩)
      simp [copyBytes, hr, copied, copyEvents, Memory.putBytes]

/-- The bytes a byte sequence leaves in a memory: the sequence at its addresses, the rest as before.
The sequence is shorter than the address space, so no byte of it falls on another. -/
theorem get_putBytes (bs : List Byte) : ∀ (m : Memory) (a : Addr), bs.length ≤ 2 ^ 32 →
    (∀ i b, bs[i]? = some b → (m.putBytes a bs).get (a + BitVec.ofNat 32 i).toNat = some b) ∧
    (∀ x : Nat, (∀ i, i < bs.length → x ≠ (a + BitVec.ofNat 32 i).toNat) →
      (m.putBytes a bs).get x = m.get x) := by
  induction bs with
  | nil => exact fun m a _ => ⟨by simp, fun _ _ => rfl⟩
  | cons b bs ih =>
    intro m a hl
    simp only [List.length_cons] at hl
    obtain ⟨h1, h2⟩ := ih (m.put a.toNat b) (a + 1#32) (by omega)
    refine ⟨fun i c hc => ?_, fun x hx => ?_⟩
    · cases i with
      | zero =>
        simp only [List.getElem?_cons_zero, Option.some.injEq] at hc
        subst hc
        simp only [Memory.putBytes, addr_zero]
        rw [h2 _ fun i hi he => ?_, Memory.get_put_same]
        rw [addr_succ] at he
        have := addr_inj (a := a) (i := 0) (j := i + 1) (by omega) (by omega) (by simpa using he)
        omega
      | succ i => rw [← addr_succ]; exact h1 i c (by simpa using hc)
    · simp only [Memory.putBytes]
      rw [h2 x fun i hi => by rw [addr_succ]; exact hx (i + 1) (by simp; omega)]
      exact Memory.get_put_other _ _ (by simpa using hx 0 (by simp))

end Sys2Proof.Machine
end

