-- ==== Sys2Proof/Laws/Commands.lean ====
section
/-! SUPPORT. Everything the commands that access memory can do, as inductive predicates on the outcome:
each command's lemma says that its outcome is one of the predicate's cases. -/

namespace Sys2Proof.Machine
open Sys2Proof

/-! ### VALIDATE -/

/-- The state after the header is read and latched (R144). -/
def headerLatched (s : State) (h : List Byte) : State :=
  (withEvents s.clearView (readEvents s.regionBase h)).latchHeader h

/-- The state after the CRC pass over `bs` (R146). -/
def covered (s : State) (h bs : List Byte) : State :=
  crcPassed ((headerLatched s h).withCrc Config.crcInit) s.regionBase bs

/-- The address of the stored checksum (R147), for header bytes `h`. -/
def checksumAddr (s : State) (h : List Byte) : Addr :=
  s.regionBase + BitVec.ofNat 32 ((leHalf (h.drop 3)).toNat - 4)

/-- The state after the checksum bytes `c` are read and both checksums latched (R147). -/
def summed (s : State) (h bs c : List Byte) : State :=
  (withEvents (covered s h bs) (readEvents (checksumAddr s h) c)).latchChecksums c

/-- The header's length, as a number. -/
def headerLength (h : List Byte) : Nat := (leHalf (h.drop 3)).toNat

/-- Is the header's length refused in `s` (R145)? -/
def HeaderBad (s : State) (h : List Byte) : Prop :=
  headerLength h < 9 ∨ s.regionSize.toNat < headerLength h

/-- What VALIDATE does in `s` (R141). -/
inductive ValidateRun (s : State) : Result → Prop where
  | smallRegion (hs : s.regionSize.toNat < 5) :
      ValidateRun s (finishValidate .lengthInvalid s.clearView)
  | stuckInHeader (bs : List Byte) (hs : 5 ≤ s.regionSize.toNat) (hl : bs.length < 5)
      (ha : Answers s.storage s.regionBase bs)
      (hn : s.storage.get (s.regionBase + BitVec.ofNat 32 bs.length).toNat = none) :
      ValidateRun s (.fault (.storageStuck (s.regionBase + BitVec.ofNat 32 bs.length)
        (withEvents s.clearView (readEvents s.regionBase bs))))
  | badLength (h : List Byte) (hs : 5 ≤ s.regionSize.toNat) (hh : h.length = 5)
      (ha : Answers s.storage s.regionBase h) (hb : HeaderBad s h) :
      ValidateRun s (finishValidate .lengthInvalid (headerLatched s h))
  | stuckInPass (h bs : List Byte) (hs : 5 ≤ s.regionSize.toNat) (hh : h.length = 5)
      (ha : Answers s.storage s.regionBase h) (hb : ¬ HeaderBad s h)
      (hl : bs.length < headerLength h - 4) (hc : Answers s.storage s.regionBase bs)
      (hn : s.storage.get (s.regionBase + BitVec.ofNat 32 bs.length).toNat = none) :
      ValidateRun s (.fault (.storageStuck (s.regionBase + BitVec.ofNat 32 bs.length) (covered s h bs)))
  | stuckInChecksum (h bs c : List Byte) (hs : 5 ≤ s.regionSize.toNat) (hh : h.length = 5)
      (ha : Answers s.storage s.regionBase h) (hb : ¬ HeaderBad s h)
      (hl : bs.length = headerLength h - 4) (hc : Answers s.storage s.regionBase bs)
      (hk : c.length < 4) (hd : Answers s.storage (checksumAddr s h) c)
      (hn : s.storage.get (checksumAddr s h + BitVec.ofNat 32 c.length).toNat = none) :
      ValidateRun s (.fault (.storageStuck (checksumAddr s h + BitVec.ofNat 32 c.length)
        (withEvents (covered s h bs) (readEvents (checksumAddr s h) c))))
  | verdict (h bs c : List Byte) (hs : 5 ≤ s.regionSize.toNat) (hh : h.length = 5)
      (ha : Answers s.storage s.regionBase h) (hb : ¬ HeaderBad s h)
      (hl : bs.length = headerLength h - 4) (hc : Answers s.storage s.regionBase bs)
      (hk : c.length = 4) (hd : Answers s.storage (checksumAddr s h) c) :
      ValidateRun s (finishValidate (summed s h bs c).verdict (summed s h bs c))

theorem headerLatched_lengthBad (s : State) (h : List Byte) :
    (headerLatched s h).lengthBad = true ↔ HeaderBad s h := by
  simp only [State.lengthBad, Bool.or_eq_true, decide_eq_true_eq]
  exact Iff.rfl

/-- VALIDATE does one of these things. -/
theorem execValidate_run (s : State) : ValidateRun s (execValidate s) := by
  unfold execValidate
  split
  · rename_i hs
    exact .smallRegion hs
  rename_i hs
  have hs : 5 ≤ s.regionSize.toNat := by simpa [Config.hdrSize] using hs
  rcases readBytes_cases 5 s.regionBase s.clearView with ⟨h, hh, ha, hr⟩ | ⟨bs, hl, ha, hn, hr⟩
  · simp only [Config.hdrSize, hr, Reply.andThen_done]
    split
    · rename_i hb
      exact .badLength h hs hh ha ((headerLatched_lengthBad s h).1 hb)
    · rename_i hb
      have hb : ¬ HeaderBad s h := fun h' => hb ((headerLatched_lengthBad s h).2 h')
      change ValidateRun s (validateBody (headerLatched s h))
      unfold validateBody
      rcases crcPass_cases (headerLength h - 4) s.regionBase ((headerLatched s h).withCrc Config.crcInit)
        with ⟨bs, hl, hc, hp⟩ | ⟨bs, hl, hc, hn, hp⟩
      · rcases readBytes_cases 4 (checksumAddr s h) (covered s h bs) with
          ⟨c, hk, hd, hq⟩ | ⟨c, hk, hd, hn, hq⟩
        · have e := ValidateRun.verdict h bs c hs hh ha hb hl hc hk hd
          have e2 : (headerLatched s h).regionBase = s.regionBase := rfl
          have e3 : (headerLatched s h).hdrLen.toNat - Config.checksumSize = headerLength h - 4 := rfl
          rw [e2, e3, hp, Reply.andThen_done]
          change ValidateRun s (Reply.andThen (readBytes (checksumAddr s h) 4 (covered s h bs)) _)
          rw [hq]
          exact e
        · have e := ValidateRun.stuckInChecksum h bs c hs hh ha hb hl hc hk hd hn
          have e2 : (headerLatched s h).regionBase = s.regionBase := rfl
          have e3 : (headerLatched s h).hdrLen.toNat - Config.checksumSize = headerLength h - 4 := rfl
          rw [e2, e3, hp, Reply.andThen_done]
          change ValidateRun s (Reply.andThen (readBytes (checksumAddr s h) 4 (covered s h bs)) _)
          rw [hq]
          exact e
      · have e := ValidateRun.stuckInPass h bs hs hh ha hb hl hc hn
        have e2 : (headerLatched s h).regionBase = s.regionBase := rfl
        have e3 : (headerLatched s h).hdrLen.toNat - Config.checksumSize = headerLength h - 4 := rfl
        rw [e2, e3, hp]
        exact e
  · simp only [Config.hdrSize, hr, Reply.andThen_fault]
    exact .stuckInHeader bs hs hl ha hn

/-- Where VALIDATE answers a next state, it is one of these three. -/
theorem execValidate_next {s t : State} (ht : execValidate s = .next t) :
    (s.regionSize.toNat < 5 ∧ t = (s.clearView.withVresult .lengthInvalid).complete .none) ∨
    (∃ h, 5 ≤ s.regionSize.toNat ∧ h.length = 5 ∧ Answers s.storage s.regionBase h ∧ HeaderBad s h ∧
      t = ((headerLatched s h).withVresult .lengthInvalid).complete .none) ∨
    (∃ h bs c, 5 ≤ s.regionSize.toNat ∧ h.length = 5 ∧ Answers s.storage s.regionBase h ∧
      ¬ HeaderBad s h ∧ bs.length = headerLength h - 4 ∧ Answers s.storage s.regionBase bs ∧
      c.length = 4 ∧ Answers s.storage (checksumAddr s h) c ∧
      t = ((summed s h bs c).withVresult (summed s h bs c).verdict).complete .none) := by
  have hv := execValidate_run s
  rw [ht] at hv
  generalize hr : (Host.Outcome.next t : Result) = r at hv
  cases hv with
  | smallRegion hs => cases hr; exact .inl ⟨hs, rfl⟩
  | badLength h hs hh ha hb => cases hr; exact .inr (.inl ⟨h, hs, hh, ha, hb, rfl⟩)
  | verdict h bs c hs hh ha hb hl hc hk hd =>
    cases hr; exact .inr (.inr ⟨h, bs, c, hs, hh, ha, hb, hl, hc, hk, hd, rfl⟩)
  | stuckInHeader | stuckInPass | stuckInChecksum => cases hr

/-- Two answered sequences of one length are equal. -/
theorem answers_unique {m : Memory} : ∀ {bs cs : List Byte} {a : Addr},
    Answers m a bs → Answers m a cs → bs.length = cs.length → bs = cs := by
  intro bs
  induction bs with
  | nil => intro cs a _ _ h; exact (List.length_eq_zero_iff.1 h.symm).symm
  | cons b bs ih =>
    intro cs a h1 h2 hl
    cases cs with
    | nil => simp at hl
    | cons c cs =>
      obtain ⟨x1, y1⟩ := (answers_cons _ _ _ _).1 h1
      obtain ⟨x2, y2⟩ := (answers_cons _ _ _ _).1 h2
      rw [x1] at x2
      cases x2
      rw [ih y1 y2 (by simpa using hl)]

theorem answers_take {m : Memory} {a : Addr} {bs : List Byte} (n : Nat) (h : Answers m a bs) :
    Answers m a (bs.take n) := by
  intro i b hb
  rw [List.getElem?_take] at hb
  split at hb
  · exact h i b hb
  · cases hb

/-- No address inside an answered sequence is silent. -/
theorem answers_not_silent {m : Memory} {a : Addr} {bs : List Byte} {k : Nat} (h : Answers m a bs)
    (hk : k < bs.length) : m.get (a + BitVec.ofNat 32 k).toNat ≠ none := by
  rw [h k bs[k] (by simp [hk])]
  simp

/-- A shorter answered sequence is the beginning of a longer one. -/
theorem answers_prefix {m : Memory} {a : Addr} {bs cs : List Byte} (h : Answers m a bs)
    (hc : Answers m a cs) (hl : cs.length ≤ bs.length) : cs = bs.take cs.length := by
  refine answers_unique hc (answers_take _ h) ?_
  simp only [List.length_take]
  omega

/-- Writing one byte of an answered sequence gives the sequence with that byte in its place. -/
theorem answers_put {m : Memory} {a : Addr} {bs : List Byte} {k : Nat} {v : Byte} (h : Answers m a bs)
    (hk : k < bs.length) (hl : bs.length ≤ 2 ^ 32) :
    Answers (m.put (a + BitVec.ofNat 32 k).toNat v) a (bs.set k v) := by
  intro i b hb
  rw [List.getElem?_set] at hb
  split at hb
  · subst ‹k = i›
    simp only [Option.some.injEq] at hb
    subst hb
    exact Memory.get_put_same _ _ _
  · have hi : i < bs.length := by
      by_contra hh
      rw [List.getElem?_eq_none (by omega)] at hb
      cases hb
    rw [Memory.get_put_other]
    · exact h i b hb
    · intro e
      exact absurd (addr_inj (by omega) (by omega) e) (by omega)

/-! ### Little-endian assembly (R14) -/

/-- A word is its four bytes, the highest first. -/
theorem bytes_append (w : Word) :
    w.extractLsb' 24 8 ++ w.extractLsb' 16 8 ++ w.extractLsb' 8 8 ++ w.extractLsb' 0 8 = w := by
  apply BitVec.eq_of_toNat_eq
  simp only [BitVec.toNat_append, BitVec.extractLsb'_toNat]
  rw [← Nat.shiftLeft_add_eq_or_of_lt (by omega), ← Nat.shiftLeft_add_eq_or_of_lt (by omega),
    ← Nat.shiftLeft_add_eq_or_of_lt (by omega)]
  simp only [Nat.shiftLeft_eq, Nat.shiftRight_eq_div_pow]
  have := w.isLt
  omega


theorem leHalf_two (a b : Byte) : leHalf [a, b] = b ++ a := by
  apply BitVec.eq_of_toNat_eq
  simp only [leHalf, leNat, BitVec.toNat_ofNat, BitVec.toNat_append]
  rw [← Nat.shiftLeft_add_eq_or_of_lt a.isLt, Nat.shiftLeft_eq]
  omega

theorem toNat_leHalf_two (a b : Byte) : (leHalf [a, b]).toNat = a.toNat + 256 * b.toNat := by
  simp only [leHalf, leNat, BitVec.toNat_ofNat]
  omega

/-- The header length as a number (R144). -/
theorem headerLength_five (a b c d e : Byte) :
    headerLength [a, b, c, d, e] = d.toNat + 256 * e.toNat := toNat_leHalf_two d e

theorem leWord_one (a : Byte) : leWord [a] = 0#24 ++ a := by
  apply BitVec.eq_of_toNat_eq
  simp only [leWord, leNat, BitVec.toNat_ofNat, BitVec.toNat_append]
  rw [← Nat.shiftLeft_add_eq_or_of_lt a.isLt, Nat.shiftLeft_eq]
  omega

theorem leWord_two (a b : Byte) : leWord [a, b] = 0#16 ++ b ++ a := by
  apply BitVec.eq_of_toNat_eq
  simp only [leWord, leNat, BitVec.toNat_ofNat, BitVec.toNat_append]
  rw [← Nat.shiftLeft_add_eq_or_of_lt a.isLt, ← Nat.shiftLeft_add_eq_or_of_lt b.isLt]
  simp only [Nat.shiftLeft_eq]
  omega

theorem leWord_four (a b c d : Byte) : leWord [a, b, c, d] = d ++ c ++ b ++ a := by
  apply BitVec.eq_of_toNat_eq
  simp only [leWord, leNat, BitVec.toNat_ofNat, BitVec.toNat_append]
  rw [← Nat.shiftLeft_add_eq_or_of_lt a.isLt, ← Nat.shiftLeft_add_eq_or_of_lt b.isLt,
    ← Nat.shiftLeft_add_eq_or_of_lt c.isLt]
  simp only [Nat.shiftLeft_eq]
  omega

/-! ### READ_FIELD and READ_SCALAR -/

/-- The storage address of the first byte a field command reads (R170, R172, R173). -/
def fieldStart (s : State) : Addr := s.regionBase + BitVec.ofNat 32 (5 + s.argOffset.toNat)

theorem State.inBounds_iff (s : State) (off n : Nat) :
    s.inBounds off n = true ↔ off + n + 9 ≤ s.hdrLen.toNat := by
  simp [State.inBounds, Config.minLength]

theorem State.valid_iff (s : State) : s.valid = true ↔ s.vresult = .ok := by
  simp [State.valid]

/-- What READ_SCALAR of `n` bytes does in `s` (R173). -/
inductive ScalarRun (n : Nat) (s : State) : Result → Prop where
  | notValidated (hv : s.vresult ≠ .ok) : ScalarRun n s (finish .notValidated s)
  | outOfBounds (hv : s.vresult = .ok) (hb : s.hdrLen.toNat < s.argOffset.toNat + n + 9) :
      ScalarRun n s (finish .outOfBounds s)
  | stuck (bs : List Byte) (hv : s.vresult = .ok)
      (hb : s.argOffset.toNat + n + 9 ≤ s.hdrLen.toNat) (hl : bs.length < n)
      (ha : Answers s.storage (fieldStart s) bs)
      (hn : s.storage.get (fieldStart s + BitVec.ofNat 32 bs.length).toNat = none) :
      ScalarRun n s (.fault (.storageStuck (fieldStart s + BitVec.ofNat 32 bs.length)
        (withEvents s (readEvents (fieldStart s) bs))))
  | value (bs : List Byte) (hv : s.vresult = .ok)
      (hb : s.argOffset.toNat + n + 9 ≤ s.hdrLen.toNat) (hl : bs.length = n)
      (ha : Answers s.storage (fieldStart s) bs) :
      ScalarRun n s
        (finish .none ((withEvents s (readEvents (fieldStart s) bs)).withRdata (leWord bs)))

/-- READ_SCALAR does one of these things. -/
theorem readScalar_run (n : Nat) (s : State) : ScalarRun n s (readScalar n s) := by
  unfold readScalar
  split
  · rename_i hv
    exact .notValidated fun h => by simp [(State.valid_iff s).2 h] at hv
  rename_i hv
  have hv : s.vresult = .ok := (State.valid_iff s).1 (by simpa using hv)
  split
  · rename_i hb
    refine .outOfBounds hv ?_
    by_contra h
    simp [(State.inBounds_iff s s.argOff n).2 (by simp only [State.argOff]; omega)] at hb
  rename_i hb
  have hb : s.argOffset.toNat + n + 9 ≤ s.hdrLen.toNat :=
    (State.inBounds_iff s s.argOff n).1 (by simpa using hb)
  change ScalarRun n s (Reply.andThen (readBytes (fieldStart s) n s) _)
  rcases readBytes_cases n (fieldStart s) s with ⟨bs, hl, ha, hr⟩ | ⟨bs, hl, ha, hn, hr⟩ <;> rw [hr]
  · exact .value bs hv hb hl ha
  · exact .stuck bs hv hb hl ha hn

/-- What READ_FIELD does in `s` (R172). -/
inductive FieldRun (s : State) : Result → Prop where
  | notValidated (hv : s.vresult ≠ .ok) : FieldRun s (finish .notValidated s)
  | outOfBounds (hv : s.vresult = .ok)
      (hb : s.hdrLen.toNat < s.argOffset.toNat + s.argSize.toNat + 9) :
      FieldRun s (finish .outOfBounds s)
  | stuckReading (bs : List Byte) (hv : s.vresult = .ok)
      (hb : s.argOffset.toNat + s.argSize.toNat + 9 ≤ s.hdrLen.toNat)
      (hl : bs.length < s.argSize.toNat) (ha : Answers s.storage (fieldStart s) bs)
      (hd : Accepts s s.argDest bs.length)
      (hn : s.storage.get (fieldStart s + BitVec.ofNat 32 bs.length).toNat = none) :
      FieldRun s (.fault (.storageStuck (fieldStart s + BitVec.ofNat 32 bs.length)
        (copied s (fieldStart s) s.argDest bs)))
  | stuckWriting (bs : List Byte) (b : Byte) (hv : s.vresult = .ok)
      (hb : s.argOffset.toNat + s.argSize.toNat + 9 ≤ s.hdrLen.toNat)
      (hl : bs.length < s.argSize.toNat) (ha : Answers s.storage (fieldStart s) (bs ++ [b]))
      (hd : Accepts s s.argDest bs.length)
      (hn : s.destAdmits (s.argDest + BitVec.ofNat 32 bs.length) = false) :
      FieldRun s (.fault (.destStuck (s.argDest + BitVec.ofNat 32 bs.length)
        ((copied s (fieldStart s) s.argDest bs).log
          (.storageRead (fieldStart s + BitVec.ofNat 32 bs.length) b))))
  | overlaps (bs : List Byte) (b : Byte) (hv : s.vresult = .ok)
      (hb : s.argOffset.toNat + s.argSize.toNat + 9 ≤ s.hdrLen.toNat)
      (hl : bs.length < s.argSize.toNat) (ha : Answers s.storage (fieldStart s) (bs ++ [b]))
      (hd : Accepts s s.argDest bs.length)
      (hn : s.destAdmits (s.argDest + BitVec.ofNat 32 bs.length) = true)
      (ho : s.hitsStorage (s.argDest + BitVec.ofNat 32 bs.length) = true) :
      FieldRun s (.refused (.destOverlapsStorage (s.argDest + BitVec.ofNat 32 bs.length)
        ((copied s (fieldStart s) s.argDest bs).log
          (.storageRead (fieldStart s + BitVec.ofNat 32 bs.length) b))))
  | copies (bs : List Byte) (hv : s.vresult = .ok)
      (hb : s.argOffset.toNat + s.argSize.toNat + 9 ≤ s.hdrLen.toNat)
      (hl : bs.length = s.argSize.toNat) (ha : Answers s.storage (fieldStart s) bs)
      (hd : Accepts s s.argDest bs.length) :
      FieldRun s (finish .none (copied s (fieldStart s) s.argDest bs))

/-- READ_FIELD does one of these things. -/
theorem execReadField_run (s : State) : FieldRun s (execReadField s) := by
  unfold execReadField
  split
  · rename_i hv
    exact .notValidated fun h => by simp [(State.valid_iff s).2 h] at hv
  rename_i hv
  have hv : s.vresult = .ok := (State.valid_iff s).1 (by simpa using hv)
  split
  · rename_i hb
    refine .outOfBounds hv ?_
    by_contra h
    simp [(State.inBounds_iff s s.argOff s.argLen).2
      (by simp only [State.argOff, State.argLen]; omega)] at hb
  rename_i hb
  have hb : s.argOffset.toNat + s.argSize.toNat + 9 ≤ s.hdrLen.toNat :=
    (State.inBounds_iff s s.argOff s.argLen).1 (by simpa using hb)
  change FieldRun s (Reply.andThen (copyBytes (fieldStart s) s.argDest s.argSize.toNat s) _)
  rcases copyBytes_cases s.argSize.toNat (fieldStart s) s.argDest s with
    ⟨bs, hl, ha, hd, hr⟩ | ⟨bs, hl, ha, hd, hn, hr⟩ | ⟨bs, b, hl, ha, hd, hn, hr⟩ |
    ⟨bs, b, hl, ha, hd, hn, ho, hr⟩ <;> rw [hr]
  · exact .copies bs hv hb hl ha (hl ▸ hd)
  · exact .stuckReading bs hv hb hl ha hd hn
  · exact .stuckWriting bs b hv hb hl ha hd hn
  · exact .overlaps bs b hv hb hl ha hd hn ho

end Sys2Proof.Machine
end

