-- ==== Sys2Proof/Laws/Decode.lean ====
section
/-! SUPPORT. The fields of a command word, the decoder's cases, and the window's offsets. -/

namespace Sys2Proof

/-- A word is its five fields (R91). -/
theorem word_fields (w : Word) :
    w.toNat = (opc w).toNat + 16 * (rsv0 w).toNat + 256 * (data8 w).toNat +
      65536 * (widthField w).toNat + 262144 * (rsv1 w).toNat := by
  have := w.isLt
  simp only [opc, rsv0, data8, widthField, rsv1, BitVec.extractLsb'_toNat, Nat.shiftRight_eq_div_pow]
  omega

/-- Words with equal fields are equal. -/
theorem word_eq_of_fields {v w : Word} (h1 : opc v = opc w) (h2 : rsv0 v = rsv0 w)
    (h3 : data8 v = data8 w) (h4 : widthField v = widthField w) (h5 : rsv1 v = rsv1 w) : v = w := by
  apply BitVec.eq_of_toNat_eq
  rw [word_fields v, word_fields w, h1, h2, h3, h4, h5]

/-- The fields of a CRC_UPDATE word. -/
theorem update_fields (b : Byte) :
    opc (0x0000#16 ++ b ++ 0x02#8) = 0x2 ∧ rsv0 (0x0000#16 ++ b ++ 0x02#8) = 0 ∧
    data8 (0x0000#16 ++ b ++ 0x02#8) = b ∧ widthField (0x0000#16 ++ b ++ 0x02#8) = 0 ∧
    rsv1 (0x0000#16 ++ b ++ 0x02#8) = 0 := by
  revert b; decide +kernel

/-- Everything the decoder can answer, with the fields that make it do so (R98). -/
theorem decodeCommand_cases (w : Word) :
    (decodeCommand w = .illegal w ∧
      (rsv0 w ≠ 0 ∨ rsv1 w ≠ 0 ∨ opc w = 0x0 ∨ 0x7 ≤ opc w ∨ (data8 w ≠ 0 ∧ opc w ≠ 0x2) ∨
        (widthField w ≠ 0 ∧ opc w ≠ 0x6) ∨ widthField w = 3)) ∨
    (rsv0 w = 0 ∧ rsv1 w = 0 ∧
      ((decodeCommand w = .crcReset ∧ w = 0x00000001) ∨
      (decodeCommand w = .crcUpdate (data8 w) ∧ w = 0x0000#16 ++ data8 w ++ 0x02#8) ∨
      (decodeCommand w = .crcFinalize ∧ w = 0x00000003) ∨
      (decodeCommand w = .validate ∧ w = 0x00000004) ∨
      (decodeCommand w = .readField ∧ w = 0x00000005) ∨
      (decodeCommand w = .readScalarB ∧ w = 0x00000006) ∨
      (decodeCommand w = .readScalarH ∧ w = 0x00010006) ∨
      (decodeCommand w = .readScalarW ∧ w = 0x00020006))) := by
  unfold decodeCommand
  split
  · rename_i h; exact .inl ⟨rfl, by tauto⟩
  rename_i h0
  have hz : rsv0 w = 0 ∧ rsv1 w = 0 := by tauto
  obtain ⟨hr0, hr1⟩ := hz
  split
  · rename_i h
    exact .inr ⟨hr0, hr1, .inl ⟨rfl, word_eq_of_fields (by rw [h.1]; rfl) (by rw [hr0]; rfl)
      (by rw [h.2.1]; rfl) (by rw [h.2.2]; rfl) (by rw [hr1]; rfl)⟩⟩
  split
  · rename_i h
    obtain ⟨u1, u2, u3, u4, u5⟩ := update_fields (data8 w)
    exact .inr ⟨hr0, hr1, .inr (.inl ⟨rfl, word_eq_of_fields (by rw [h.1, u1]) (by rw [hr0, u2])
      (by rw [u3]) (by rw [h.2, u4]) (by rw [hr1, u5])⟩)⟩
  split
  · rename_i h
    exact .inr ⟨hr0, hr1, .inr (.inr (.inl ⟨rfl, word_eq_of_fields (by rw [h.1]; rfl)
      (by rw [hr0]; rfl) (by rw [h.2.1]; rfl) (by rw [h.2.2]; rfl) (by rw [hr1]; rfl)⟩))⟩
  split
  · rename_i h
    exact .inr ⟨hr0, hr1, .inr (.inr (.inr (.inl ⟨rfl, word_eq_of_fields (by rw [h.1]; rfl)
      (by rw [hr0]; rfl) (by rw [h.2.1]; rfl) (by rw [h.2.2]; rfl) (by rw [hr1]; rfl)⟩)))⟩
  split
  · rename_i h
    exact .inr ⟨hr0, hr1, .inr (.inr (.inr (.inr (.inl ⟨rfl, word_eq_of_fields (by rw [h.1]; rfl)
      (by rw [hr0]; rfl) (by rw [h.2.1]; rfl) (by rw [h.2.2]; rfl) (by rw [hr1]; rfl)⟩))))⟩
  split
  · rename_i h
    exact .inr ⟨hr0, hr1, .inr (.inr (.inr (.inr (.inr (.inl ⟨rfl, word_eq_of_fields
      (by rw [h.1]; rfl) (by rw [hr0]; rfl) (by rw [h.2.1]; rfl) (by rw [h.2.2]; rfl)
      (by rw [hr1]; rfl)⟩)))))⟩
  split
  · rename_i h
    exact .inr ⟨hr0, hr1, .inr (.inr (.inr (.inr (.inr (.inr (.inl ⟨rfl, word_eq_of_fields
      (by rw [h.1]; rfl) (by rw [hr0]; rfl) (by rw [h.2.1]; rfl) (by rw [h.2.2]; rfl)
      (by rw [hr1]; rfl)⟩))))))⟩
  split
  · rename_i h
    exact .inr ⟨hr0, hr1, .inr (.inr (.inr (.inr (.inr (.inr (.inr ⟨rfl, word_eq_of_fields
      (by rw [h.1]; rfl) (by rw [hr0]; rfl) (by rw [h.2.1]; rfl) (by rw [h.2.2]; rfl)
      (by rw [hr1]; rfl)⟩))))))⟩
  · rename_i h1 h2 h3 h4 h5 h6 h7 h8
    refine .inl ⟨rfl, .inr (.inr ?_)⟩
    generalize opc w = o at *
    generalize data8 w = d at *
    generalize widthField w = f at *
    clear h0 hr0 hr1
    bv_omega

/-- The word of a CRC_UPDATE decodes to it (R96, R98). -/
theorem decodeCommand_update (b : Byte) :
    decodeCommand (0x0000#16 ++ b ++ 0x02#8) = .crcUpdate b := by
  obtain ⟨u1, u2, u3, u4, u5⟩ := update_fields b
  simp [decodeCommand, u1, u2, u3, u4, u5]

/-- The fields of a word under the row of CRC_UPDATE (R96). -/
theorem fields_of_update_mask {w : Word} (h : w &&& 0xFFFF00FF = 2) :
    opc w = 2 ∧ rsv0 w = 0 ∧ widthField w = 0 ∧ rsv1 w = 0 := by
  have q : ∀ {n : Nat} (x : BitVec n), x &&& BitVec.allOnes n = x := fun x => by simp
  have e (i n : Nat) : w.extractLsb' i n &&& BitVec.extractLsb' i n (0xFFFF00FF : Word) =
      BitVec.extractLsb' i n (2 : Word) := by
    rw [← BitVec.extractLsb'_and, h]
  exact ⟨(q (opc w)).symm.trans (e 0 4), (q (rsv0 w)).symm.trans (e 4 4),
    (q (widthField w)).symm.trans (e 16 2), (q (rsv1 w)).symm.trans (e 18 14)⟩

/-- A word decodes to ILLEGAL exactly when no row of the opcode map covers it (R96, R98). -/
theorem decodeCommand_illegal_iff (w : Word) : decodeCommand w = .illegal w ↔ legalWord w = false := by
  have hm : ∀ w : Word, w &&& 0xFFFFFFFF = w := fun w =>
    (congrArg (w &&& ·) (show (0xFFFFFFFF : Word) = BitVec.allOnes 32 from rfl)).trans
      BitVec.and_allOnes
  constructor
  · intro h
    by_contra hl
    simp only [legalWord, opcodeMap, OpcodeRow.covers, List.any_cons, List.any_nil, Bool.or_false, hm,
      Bool.not_eq_false, Bool.or_eq_true, beq_iff_eq] at hl
    rcases hl with rfl | hl | rfl | rfl | rfl | rfl | rfl | rfl
    · exact absurd h (by decide)
    · obtain ⟨f1, f2, f4, f5⟩ := fields_of_update_mask hl
      simp [decodeCommand, f1, f2, f4, f5] at h
    all_goals exact absurd h (by decide)
  · intro hl
    have hu (b : Byte) : legalWord (0x0000#16 ++ b ++ 0x02#8) = true := by revert b; decide +kernel
    rcases decodeCommand_cases w with ⟨h, -⟩ | ⟨-, -, h⟩
    · exact h
    · rcases h with ⟨-, rfl⟩ | ⟨-, h⟩ | ⟨-, rfl⟩ | ⟨-, rfl⟩ | ⟨-, rfl⟩ | ⟨-, rfl⟩ | ⟨-, rfl⟩ | ⟨-, rfl⟩
      · exact absurd hl (by decide)
      · rw [h, hu] at hl; cases hl
      all_goals exact absurd hl (by decide)

/-- The offset of an address built from an offset below 2^32. -/
theorem windowOffset_add (base : Addr) (off : Nat) (h : off < 2 ^ 32) :
    windowOffset base (base + BitVec.ofNat 32 off) = off := by
  simp only [windowOffset, BitVec.toNat_sub, BitVec.toNat_add, BitVec.toNat_ofNat]
  have := base.isLt
  omega

/-- A legal access decodes to the instruction of its offset (R100, R190). -/
theorem decodeAccess_legal (base : Addr) (off : Nat) (op : Transfer) (h : off < 0x40)
    (h4 : off % 4 = 0) :
    decodeAccess base { addr := base + BitVec.ofNat 32 off, width := 32, op := op } =
      .instr (windowInstr off op) := by
  have hw := windowOffset_add base off (by omega)
  simp [decodeAccess, hw, h4, Config.windowSize]
  omega

/-- An access inside the window: a bad width first, then a misaligned offset, then the row of its
offset (R100, R192; log 15). -/
theorem decodeAccess_inside {base : Addr} {a : Access} (h : windowOffset base a.addr < 0x40) :
    decodeAccess base a =
      if a.width ≠ 32 then .badWidth
      else if windowOffset base a.addr % 4 ≠ 0 then .misaligned
      else .instr (windowInstr (windowOffset base a.addr) a.op) :=
  if_neg (Nat.not_le_of_lt h)

end Sys2Proof
end

