-- ==== Sys2Proof/Laws/Frames.lean ====
section
/-! SUPPORT. What the commands leave alone, on every path: finished, stuck or refused. -/

namespace Sys2Proof.Machine
open Sys2Proof

/-! ### The states an outcome reaches -/

@[simp] theorem reaches_next (s t : State) : Reaches (.next s) t ↔ t = s := by
  simp [Reaches, eq_comm]

@[simp] theorem reaches_fault (f : Fault) (t : State) : Reaches (.fault f) t ↔ t = f.reached := by
  simp [Reaches, eq_comm]

@[simp] theorem reaches_refused (q : Refusal) (t : State) :
    Reaches (.refused q) t ↔ q.reached = some t := by
  simp [Reaches]

@[simp] theorem reaches_finish (c : CErr) (s t : State) : Reaches (finish c s) t ↔ t = s.complete c := by
  simp [finish]

@[simp] theorem reaches_finishValidate (v : VResult) (s t : State) :
    Reaches (finishValidate v s) t ↔ t = (s.withVresult v).complete .none := by
  simp [finishValidate]

/-- What no command changes. -/
structure CommandFrame (s t : State) : Prop where
  storage : t.storage = s.storage
  platform : t.platform = s.platform
  pending : t.pending = s.pending
  busFault : t.busFault = s.busFault
  freeCount : t.freeCount = s.freeCount
  regionBase : t.regionBase = s.regionBase
  regionSize : t.regionSize = s.regionSize
  argOffset : t.argOffset = s.argOffset
  argSize : t.argSize = s.argSize
  argDest : t.argDest = s.argDest

theorem execValidate_frame {s t : State} (h : Reaches (execValidate s) t) :
    CommandFrame s t ∧ t.dest = s.dest ∧ t.rdata = s.rdata := by
  generalize hr : execValidate s = r at h
  have hv := execValidate_run s
  rw [hr] at hv
  clear hr
  cases hv <;> simp only [reaches_finishValidate, reaches_fault, Fault.reached] at h <;> subst h <;>
    exact ⟨⟨rfl, rfl, rfl, rfl, rfl, rfl, rfl, rfl, rfl, rfl⟩, rfl, rfl⟩

theorem readScalar_frame {n : Nat} {s t : State} (h : Reaches (readScalar n s) t) :
    CommandFrame s t ∧ t.dest = s.dest ∧ t.crcState = s.crcState ∧ t.vresult = s.vresult ∧
      t.hdrId = s.hdrId ∧ t.hdrLen = s.hdrLen ∧ t.expected = s.expected ∧ t.computed = s.computed := by
  generalize hr : readScalar n s = r at h
  have hv := readScalar_run n s
  rw [hr] at hv
  clear hr
  cases hv <;> simp only [reaches_finish, reaches_fault, Fault.reached] at h <;> subst h <;>
    exact ⟨⟨rfl, rfl, rfl, rfl, rfl, rfl, rfl, rfl, rfl, rfl⟩, rfl, rfl, rfl, rfl, rfl, rfl, rfl⟩

theorem execReadField_frame {s t : State} (h : Reaches (execReadField s) t) :
    CommandFrame s t ∧ t.rdata = s.rdata ∧ t.crcState = s.crcState ∧ t.vresult = s.vresult ∧
      t.hdrId = s.hdrId ∧ t.hdrLen = s.hdrLen ∧ t.expected = s.expected ∧ t.computed = s.computed := by
  generalize hr : execReadField s = r at h
  have hv := execReadField_run s
  rw [hr] at hv
  clear hr
  cases hv <;>
    simp only [reaches_finish, reaches_fault, reaches_refused, Fault.reached, Refusal.reached,
      Option.some.injEq] at h <;>
    subst h <;>
    exact ⟨⟨rfl, rfl, rfl, rfl, rfl, rfl, rfl, rfl, rfl, rfl⟩, rfl, rfl, rfl, rfl, rfl, rfl, rfl⟩

/-- A command changes none of these. -/
theorem execCommand_frame {c : Command} {s t : State} (h : Reaches (execCommand c s) t) :
    CommandFrame s t := by
  cases c with
  | crcReset | crcUpdate | crcFinalize | illegal =>
    simp only [execCommand, execCrcReset, execCrcUpdate, execCrcFinalize, execIllegalCmd,
      reaches_finish] at h
    subst h
    exact ⟨rfl, rfl, rfl, rfl, rfl, rfl, rfl, rfl, rfl, rfl⟩
  | validate => exact (execValidate_frame h).1
  | readField => exact (execReadField_frame h).1
  | readScalarB => exact (readScalar_frame (n := 1) h).1
  | readScalarH => exact (readScalar_frame (n := 2) h).1
  | readScalarW => exact (readScalar_frame (n := 4) h).1

/-! ### The port -/

/-- `exec` of a command's instruction is that command. -/
theorem exec_toInstr (c : Command) (s : State) : exec c.toInstr s = execCommand c s := by
  cases c <;> rfl

/-- A CMD write is the command its word names, after the access is recorded (R195). -/
theorem execWrCmd_eq (w : Word) (s : State) :
    exec (.wrCmd w) s = execCommand (decodeCommand w) (s.log (.regWrite 0x00 w)) := rfl

/-- Every instruction is a command, a CMD write, a register read, a write of another register, or a bus
error. -/
theorem exec_cases (i : Instr) (s : State) :
    (∃ c : Command, i = c.toInstr ∧ exec i s = execCommand c s) ∨
    (∃ w, i = .wrCmd w ∧ exec i s = execCommand (decodeCommand w) (s.log (.regWrite 0x00 w))) ∨
    (∃ r : Reg, i = r.rdInstr ∧ exec i s = portRead r s) ∨
    (∃ r : Reg, ∃ v, r ≠ .cmd ∧ i = r.wrInstr v ∧ exec i s = portWrite r v s) ∨
    (∃ off, (i = .slverr38R ∨ i = .slverr3cR) ∧ exec i s = busErrorRead off s) ∨
    (∃ off v, (i = .slverr38W v ∨ i = .slverr3cW v) ∧ exec i s = busErrorWrite off v s) := by
  cases i with
  | crcReset => exact .inl ⟨.crcReset, rfl, rfl⟩
  | crcUpdate b => exact .inl ⟨.crcUpdate b, rfl, rfl⟩
  | crcFinalize => exact .inl ⟨.crcFinalize, rfl, rfl⟩
  | validate => exact .inl ⟨.validate, rfl, rfl⟩
  | readField => exact .inl ⟨.readField, rfl, rfl⟩
  | readScalarB => exact .inl ⟨.readScalarB, rfl, rfl⟩
  | readScalarH => exact .inl ⟨.readScalarH, rfl, rfl⟩
  | readScalarW => exact .inl ⟨.readScalarW, rfl, rfl⟩
  | illegalCmd w => exact .inl ⟨.illegal w, rfl, rfl⟩
  | wrCmd w => exact .inr (.inl ⟨w, rfl, rfl⟩)
  | rdCmd => exact .inr (.inr (.inl ⟨.cmd, rfl, rfl⟩))
  | rdStatus => exact .inr (.inr (.inl ⟨.status, rfl, rfl⟩))
  | rdCrcState => exact .inr (.inr (.inl ⟨.crcState, rfl, rfl⟩))
  | rdCrcResult => exact .inr (.inr (.inl ⟨.crcResult, rfl, rfl⟩))
  | rdRegionBase => exact .inr (.inr (.inl ⟨.regionBase, rfl, rfl⟩))
  | rdRegionSize => exact .inr (.inr (.inl ⟨.regionSize, rfl, rfl⟩))
  | rdHdrId => exact .inr (.inr (.inl ⟨.hdrId, rfl, rfl⟩))
  | rdHdrLen => exact .inr (.inr (.inl ⟨.hdrLen, rfl, rfl⟩))
  | rdExpected => exact .inr (.inr (.inl ⟨.expected, rfl, rfl⟩))
  | rdComputed => exact .inr (.inr (.inl ⟨.computed, rfl, rfl⟩))
  | rdArgOffset => exact .inr (.inr (.inl ⟨.argOffset, rfl, rfl⟩))
  | rdArgSize => exact .inr (.inr (.inl ⟨.argSize, rfl, rfl⟩))
  | rdArgDest => exact .inr (.inr (.inl ⟨.argDest, rfl, rfl⟩))
  | rdRdata => exact .inr (.inr (.inl ⟨.rdata, rfl, rfl⟩))
  | wrStatus v => exact .inr (.inr (.inr (.inl ⟨.status, v, by decide, rfl, rfl⟩)))
  | wrCrcState v => exact .inr (.inr (.inr (.inl ⟨.crcState, v, by decide, rfl, rfl⟩)))
  | wrCrcResult v => exact .inr (.inr (.inr (.inl ⟨.crcResult, v, by decide, rfl, rfl⟩)))
  | wrRegionBase v => exact .inr (.inr (.inr (.inl ⟨.regionBase, v, by decide, rfl, rfl⟩)))
  | wrRegionSize v => exact .inr (.inr (.inr (.inl ⟨.regionSize, v, by decide, rfl, rfl⟩)))
  | wrHdrId v => exact .inr (.inr (.inr (.inl ⟨.hdrId, v, by decide, rfl, rfl⟩)))
  | wrHdrLen v => exact .inr (.inr (.inr (.inl ⟨.hdrLen, v, by decide, rfl, rfl⟩)))
  | wrExpected v => exact .inr (.inr (.inr (.inl ⟨.expected, v, by decide, rfl, rfl⟩)))
  | wrComputed v => exact .inr (.inr (.inr (.inl ⟨.computed, v, by decide, rfl, rfl⟩)))
  | wrArgOffset v => exact .inr (.inr (.inr (.inl ⟨.argOffset, v, by decide, rfl, rfl⟩)))
  | wrArgSize v => exact .inr (.inr (.inr (.inl ⟨.argSize, v, by decide, rfl, rfl⟩)))
  | wrArgDest v => exact .inr (.inr (.inr (.inl ⟨.argDest, v, by decide, rfl, rfl⟩)))
  | wrRdata v => exact .inr (.inr (.inr (.inl ⟨.rdata, v, by decide, rfl, rfl⟩)))
  | slverr38R => exact .inr (.inr (.inr (.inr (.inl ⟨0x38, .inl rfl, rfl⟩))))
  | slverr38W v => exact .inr (.inr (.inr (.inr (.inr ⟨0x38, v, .inl rfl, rfl⟩))))
  | slverr3cR => exact .inr (.inr (.inr (.inr (.inl ⟨0x3C, .inr rfl, rfl⟩))))
  | slverr3cW v => exact .inr (.inr (.inr (.inr (.inr ⟨0x3C, v, .inr rfl, rfl⟩))))

/-! ### Replaying the recorded destination writes -/

theorem replayWrites_append (es fs : List Event) :
    ∀ m, replayWrites (es ++ fs) m = replayWrites fs (replayWrites es m) := by
  induction es with
  | nil => exact fun _ => rfl
  | cons e es ih => intro m; cases e <;> exact ih _

@[simp] theorem replayWrites_readEvents (bs : List Byte) :
    ∀ (a : Addr) (m : Memory), replayWrites (readEvents a bs) m = m := by
  induction bs with
  | nil => exact fun _ _ => rfl
  | cons b bs ih => exact fun a m => ih _ m

theorem replayWrites_copyEvents (bs : List Byte) :
    ∀ (a d : Addr) (m : Memory), replayWrites (copyEvents a d bs) m = m.putBytes d bs := by
  induction bs with
  | nil => exact fun _ _ _ => rfl
  | cons b bs ih => exact fun a d m => ih _ _ _

/-- Replayed writes keep the canonical form. -/
theorem wf_replayWrites (es : List Event) : ∀ {m : Memory}, m.wf → (replayWrites es m).wf := by
  induction es with
  | nil => exact fun h => h
  | cons e es ih =>
    intro m h
    cases e with
    | destWrite a b => exact ih (Memory.wf_put h a.isLt)
    | storageRead | regRead | regWrite => exact ih h

/-- A storage read among the events of reading `bs` is of one of its bytes, at its address. -/
theorem mem_readEvents {bs : List Byte} : ∀ {a : Addr} {e : Event}, e ∈ readEvents a bs →
    ∃ i b, bs[i]? = some b ∧ e = .storageRead (a + BitVec.ofNat 32 i) b := by
  induction bs with
  | nil => intro a e h; simp [readEvents] at h
  | cons b bs ih =>
    intro a e h
    rcases List.mem_cons.1 h with rfl | h
    · exact ⟨0, b, rfl, by simp⟩
    · obtain ⟨i, c, hc, he⟩ := ih h
      exact ⟨i + 1, c, by simpa using hc, by rw [he, addr_succ]⟩

/-- An event of copying `bs` is the read or the write of one of its bytes, at its addresses. -/
theorem mem_copyEvents {bs : List Byte} : ∀ {a d : Addr} {e : Event}, e ∈ copyEvents a d bs →
    ∃ i b, bs[i]? = some b ∧
      (e = .storageRead (a + BitVec.ofNat 32 i) b ∨ e = .destWrite (d + BitVec.ofNat 32 i) b) := by
  induction bs with
  | nil => intro a d e h; simp [copyEvents] at h
  | cons b bs ih =>
    intro a d e h
    rcases List.mem_cons.1 h with rfl | h
    · exact ⟨0, b, rfl, .inl (by simp)⟩
    rcases List.mem_cons.1 h with rfl | h
    · exact ⟨0, b, rfl, .inr (by simp)⟩
    · obtain ⟨i, c, hc, he⟩ := ih h
      exact ⟨i + 1, c, by simpa using hc, by rw [← addr_succ a i, ← addr_succ d i]; exact he⟩

end Sys2Proof.Machine
end

