-- ==== Sys2Proof/Laws/History.lean ====
section
/-! SUPPORT. What a command adds to the history (R42(b)), on every path: storage reads that gave the
storage's byte, destination writes at admitted addresses, and the destination changed exactly by them. -/

namespace Sys2Proof.Machine
open Sys2Proof

/-- The event is a storage read that gave the storage's byte (R13, R71). -/
def ReadOf (s : State) (e : Event) : Prop := ∃ a b, e = .storageRead a b ∧ s.storage.get a.toNat = some b

theorem readEvents_of_answers {s : State} {x : Addr} {bs : List Byte} (ha : Answers s.storage x bs) :
    ∀ e ∈ (readEvents x bs).reverse, ReadOf s e := by
  intro e he
  obtain ⟨i, c, hc, e⟩ := mem_readEvents (List.mem_reverse.1 he)
  exact ⟨_, _, e, ha i c hc⟩

theorem forall_append {P : Event → Prop} {l m : List Event} (hl : ∀ e ∈ l, P e) (hm : ∀ e ∈ m, P e) :
    ∀ e ∈ l ++ m, P e := fun e he => (List.mem_append.1 he).elim (hl e) (hm e)

/-- VALIDATE adds only storage reads. -/
theorem execValidate_history {s t : State} (h : Reaches (execValidate s) t) :
    ∃ es, t.history = es ++ s.history ∧ ∀ e ∈ es, ReadOf s e := by
  have hr := execValidate_run s
  generalize execValidate s = r at hr h
  have pass (hd bs : List Byte) : (covered s hd bs).history =
      ((readEvents s.regionBase bs).reverse ++ (readEvents s.regionBase hd).reverse) ++ s.history := by
    simp [covered, crcPassed, headerLatched, State.latchHeader, State.withCrc, State.clearView]
  have sums (hd bs c : List Byte) :
      (withEvents (covered s hd bs) (readEvents (checksumAddr s hd) c)).history =
        ((readEvents (checksumAddr s hd) c).reverse ++
          ((readEvents s.regionBase bs).reverse ++ (readEvents s.regionBase hd).reverse)) ++
          s.history := by
    rw [withEvents_history, pass, List.append_assoc, List.append_assoc]
    simp
  cases hr with
  | smallRegion =>
    simp only [reaches_finishValidate] at h; subst h
    exact ⟨[], rfl, by simp⟩
  | stuckInHeader bs _ _ ha =>
    simp only [reaches_fault] at h; subst h
    exact ⟨_, rfl, readEvents_of_answers ha⟩
  | badLength hd _ _ ha =>
    simp only [reaches_finishValidate] at h; subst h
    exact ⟨_, rfl, readEvents_of_answers ha⟩
  | stuckInPass hd bs _ _ ha _ _ hc =>
    simp only [reaches_fault] at h; subst h
    exact ⟨_, pass hd bs, forall_append (readEvents_of_answers hc) (readEvents_of_answers ha)⟩
  | stuckInChecksum hd bs c _ _ ha _ _ hc _ hq =>
    simp only [reaches_fault] at h; subst h
    exact ⟨_, sums hd bs c, forall_append (readEvents_of_answers hq)
      (forall_append (readEvents_of_answers hc) (readEvents_of_answers ha))⟩
  | verdict hd bs c _ _ ha _ _ hc _ hq =>
    simp only [reaches_finishValidate] at h; subst h
    exact ⟨_, sums hd bs c, forall_append (readEvents_of_answers hq)
      (forall_append (readEvents_of_answers hc) (readEvents_of_answers ha))⟩

/-- READ_SCALAR adds only storage reads. -/
theorem readScalar_history {n : Nat} {s t : State} (h : Reaches (readScalar n s) t) :
    ∃ es, t.history = es ++ s.history ∧ ∀ e ∈ es, ReadOf s e := by
  have hr := readScalar_run n s
  generalize readScalar n s = r at hr h
  cases hr with
  | notValidated | outOfBounds =>
    simp only [reaches_finish] at h; subst h
    exact ⟨[], rfl, by simp⟩
  | stuck bs _ _ _ ha =>
    simp only [reaches_fault] at h; subst h
    exact ⟨_, rfl, readEvents_of_answers ha⟩
  | value bs _ _ _ ha =>
    simp only [reaches_finish] at h; subst h
    exact ⟨_, rfl, readEvents_of_answers ha⟩

theorem copyEvents_faithful {s : State} {a d : Addr} {bs : List Byte} (ha : Answers s.storage a bs)
    (hd : Accepts s d bs.length) : ∀ e ∈ (copyEvents a d bs).reverse, EventFaithful s e := by
  intro e he
  obtain ⟨i, c, hc, e⟩ := mem_copyEvents (List.mem_reverse.1 he)
  have hi : i < bs.length := by
    by_contra hh
    rw [List.getElem?_eq_none (by omega)] at hc
    cases hc
  rcases e with rfl | rfl
  · exact ha i c hc
  · exact (hd i hi).1

theorem copied_history (s : State) (a d : Addr) (bs : List Byte) :
    (copied s a d bs).history = (copyEvents a d bs).reverse ++ s.history := by
  simp [copied]

theorem copied_dest (s : State) (a d : Addr) (bs : List Byte) :
    (copied s a d bs).dest = replayWrites (copyEvents a d bs).reverse.reverse s.dest := by
  rw [List.reverse_reverse, replayWrites_copyEvents]
  simp [copied]

/-- READ_FIELD adds reads and writes the platform allows, and changes the destination by the writes. -/
theorem execReadField_history {s t : State} (h : Reaches (execReadField s) t) :
    ∃ es, t.history = es ++ s.history ∧ t.dest = replayWrites es.reverse s.dest ∧
      ∀ e ∈ es, EventFaithful s e := by
  have hr := execReadField_run s
  generalize execReadField s = r at hr h
  have last (bs : List Byte) (b : Byte) (ha : Answers s.storage (fieldStart s) (bs ++ [b]))
      (hd : Accepts s s.argDest bs.length)
      (ht : t = (copied s (fieldStart s) s.argDest bs).log
        (.storageRead (fieldStart s + BitVec.ofNat 32 bs.length) b)) :
      ∃ es, t.history = es ++ s.history ∧ t.dest = replayWrites es.reverse s.dest ∧
        ∀ e ∈ es, EventFaithful s e := by
    subst ht
    refine ⟨.storageRead (fieldStart s + BitVec.ofNat 32 bs.length) b ::
      (copyEvents (fieldStart s) s.argDest bs).reverse, congrArg (_ :: ·) (copied_history ..), ?_, ?_⟩
    · rw [List.reverse_cons, replayWrites_append, ← copied_dest]
      rfl
    · intro e he
      rcases List.mem_cons.1 he with rfl | he
      · exact ha bs.length b (by simp)
      · exact copyEvents_faithful ((answers_append _ _ _ _).1 ha).1 hd e he
  cases hr with
  | notValidated | outOfBounds =>
    simp only [reaches_finish] at h; subst h
    exact ⟨[], rfl, rfl, by simp⟩
  | stuckReading bs _ _ _ ha hd =>
    simp only [reaches_fault] at h; subst h
    exact ⟨_, copied_history .., copied_dest .., copyEvents_faithful ha hd⟩
  | copies bs _ _ hl ha hd =>
    simp only [reaches_finish] at h; subst h
    exact ⟨_, copied_history .., copied_dest .., copyEvents_faithful ha hd⟩
  | stuckWriting bs c _ _ _ ha hd =>
    simp only [reaches_fault] at h
    exact last bs c ha hd h
  | overlaps bs c _ _ _ ha hd =>
    simp only [reaches_refused, Refusal.reached, Option.some.injEq] at h
    exact last bs c ha hd h.symm

/-- What any command adds: only READ_FIELD writes to the destination. -/
theorem execCommand_history {c : Command} {s t : State} (h : Reaches (execCommand c s) t) :
    ∃ es, t.history = es ++ s.history ∧ t.dest = replayWrites es.reverse s.dest ∧
      (∀ e ∈ es, EventFaithful s e) ∧ ((∃ a b, Event.destWrite a b ∈ es) → c = .readField) := by
  have reads {es : List Event} (he : t.history = es ++ s.history ∧ ∀ e ∈ es, ReadOf s e)
      (hd : t.dest = s.dest) : ∃ es, t.history = es ++ s.history ∧
        t.dest = replayWrites es.reverse s.dest ∧ (∀ e ∈ es, EventFaithful s e) ∧
        ((∃ a b, Event.destWrite a b ∈ es) → c = .readField) := by
    refine ⟨es, he.1, ?_, fun e h => ?_, fun ⟨a, b, h⟩ => ?_⟩
    · have : ∀ (fs : List Event), (∀ e ∈ fs, ReadOf s e) → ∀ m, replayWrites fs m = m := by
        intro fs
        induction fs with
        | nil => exact fun _ _ => rfl
        | cons e fs ih =>
          intro h m
          obtain ⟨a, b, rfl, -⟩ := h e (by simp)
          exact ih (fun e he => h e (by simp [he])) m
      rw [hd, this _ fun e h => he.2 e (List.mem_reverse.1 h)]
    · obtain ⟨a, b, rfl, hb⟩ := he.2 e h
      exact hb
    · obtain ⟨_, _, h, -⟩ := he.2 _ h
      cases h
  cases c with
  | crcReset | crcUpdate | crcFinalize | illegal =>
    simp only [execCommand, execCrcReset, execCrcUpdate, execCrcFinalize, execIllegalCmd,
      reaches_finish] at h
    subst h
    exact ⟨[], rfl, rfl, by simp, by simp⟩
  | validate =>
    obtain ⟨es, he⟩ := execValidate_history h
    exact reads he (execValidate_frame h).2.1
  | readField =>
    obtain ⟨es, h1, h2, h3⟩ := execReadField_history h
    exact ⟨es, h1, h2, h3, fun _ => rfl⟩
  | readScalarB =>
    obtain ⟨es, he⟩ := readScalar_history (n := 1) h
    exact reads he (readScalar_frame (n := 1) h).2.1
  | readScalarH =>
    obtain ⟨es, he⟩ := readScalar_history (n := 2) h
    exact reads he (readScalar_frame (n := 2) h).2.1
  | readScalarW =>
    obtain ⟨es, he⟩ := readScalar_history (n := 4) h
    exact reads he (readScalar_frame (n := 4) h).2.1

/-! ### Counting the accesses (R259) -/

@[simp] theorem countP_isStorageRead_readEvents (bs : List Byte) :
    ∀ a, (readEvents a bs).countP isStorageRead = bs.length := by
  induction bs with
  | nil => exact fun _ => rfl
  | cons b bs ih =>
    intro a
    rw [readEvents, List.countP_cons_of_pos rfl, ih, List.length_cons]

@[simp] theorem countP_isStorageRead_copyEvents (bs : List Byte) :
    ∀ a d, (copyEvents a d bs).countP isStorageRead = bs.length := by
  induction bs with
  | nil => exact fun _ _ => rfl
  | cons b bs ih =>
    intro a d
    rw [copyEvents, List.countP_cons_of_pos rfl, List.countP_cons_of_neg Bool.false_ne_true, ih,
      List.length_cons]

@[simp] theorem countP_isDestWrite_copyEvents (bs : List Byte) :
    ∀ a d, (copyEvents a d bs).countP isDestWrite = bs.length := by
  induction bs with
  | nil => exact fun _ _ => rfl
  | cons b bs ih =>
    intro a d
    rw [copyEvents, List.countP_cons_of_neg Bool.false_ne_true, List.countP_cons_of_pos rfl, ih,
      List.length_cons]

/-! ### A copy cut short (R241) -/

/-- The destination after the first `k` events of a copy: half of them are writes. -/
theorem replayWrites_take_copyEvents (bs : List Byte) : ∀ (a d : Addr) (m : Memory) (k : Nat),
    replayWrites ((copyEvents a d bs).take k) m = m.putBytes d (bs.take (k / 2)) := by
  induction bs with
  | nil => intro a d m k; simp [copyEvents, replayWrites, Memory.putBytes]
  | cons b bs ih =>
    intro a d m k
    match k with
    | 0 => simp [replayWrites, Memory.putBytes]
    | 1 => simp [copyEvents, replayWrites, Memory.putBytes]
    | k + 2 =>
      rw [show (k + 2) / 2 = k / 2 + 1 by omega]
      simp only [copyEvents, List.take_succ_cons, replayWrites, Memory.putBytes]
      exact ih _ _ _ _

end Sys2Proof.Machine
end

