-- ==== Sys2Proof/Laws/PerInstr.lean ====
section
/-! SUPPORT. The family RoundTrip: decoding the encoding of a well-formed instruction gives it back,
wherever the window stands; one lemma for each constructor. -/

namespace Sys2Proof.Laws.RoundTrip

/-- Decoding the encoding of the instruction gives it back. -/
def Statement (i : Instr) : Prop :=
  i.wellFormed = true → ∀ base : Addr, decode base (encode base i) = .instr i

/-- A register access round trip: the access of an aligned offset decodes to its instruction. -/
theorem of_offset {i : Instr} (off : Nat) (op : Transfer) (h : off < 0x40) (h4 : off % 4 = 0)
    (hi : windowInstr off op = i)
    (he : ∀ base : Addr, encode base i =
      .access { addr := base + BitVec.ofNat 32 off, width := 32, op := op }) : Statement i := by
  intro _ base
  rw [he, decode, decodeAccess_legal base off op h h4, hi]

/-- A command round trip: its word decodes to it. -/
theorem of_command {i : Instr} (c : Command) (h : (decodeCommand (encodeCommand c)).toInstr = i)
    (he : ∀ base : Addr, encode base i = .command (encodeCommand c)) : Statement i := by
  intro _ base
  rw [he, decode, h]

theorem crcReset : Statement .crcReset := of_command .crcReset (by decide) fun _ => rfl
theorem crcUpdate (data8 : Byte) : Statement (.crcUpdate data8) := fun _ _ => by
  simp only [decode, encode, encodeCommand, decodeCommand_update, Command.toInstr]
theorem crcFinalize : Statement .crcFinalize := of_command .crcFinalize (by decide) fun _ => rfl
theorem validate : Statement .validate := of_command .validate (by decide) fun _ => rfl
theorem readField : Statement .readField := of_command .readField (by decide) fun _ => rfl
theorem readScalarB : Statement .readScalarB := of_command .readScalarB (by decide) fun _ => rfl
theorem readScalarH : Statement .readScalarH := of_command .readScalarH (by decide) fun _ => rfl
theorem readScalarW : Statement .readScalarW := of_command .readScalarW (by decide) fun _ => rfl
theorem illegalCmd (w : Word) : Statement (.illegalCmd w) := fun h _ => by
  have hl : legalWord w = false := by simpa [Instr.wellFormed] using h
  simp only [decode, encode, encodeCommand, (decodeCommand_illegal_iff w).2 hl, Command.toInstr]
theorem rdCmd : Statement .rdCmd :=
  of_offset 0x00 .read (by decide) rfl rfl fun _ => rfl
theorem wrCmd (v : Word) : Statement (.wrCmd v) :=
  of_offset 0x00 (.write v) (by decide) rfl rfl fun _ => rfl
theorem rdStatus : Statement .rdStatus :=
  of_offset 0x04 .read (by decide) rfl rfl fun _ => rfl
theorem wrStatus (v : Word) : Statement (.wrStatus v) :=
  of_offset 0x04 (.write v) (by decide) rfl rfl fun _ => rfl
theorem rdCrcState : Statement .rdCrcState :=
  of_offset 0x08 .read (by decide) rfl rfl fun _ => rfl
theorem wrCrcState (v : Word) : Statement (.wrCrcState v) :=
  of_offset 0x08 (.write v) (by decide) rfl rfl fun _ => rfl
theorem rdCrcResult : Statement .rdCrcResult :=
  of_offset 0x0C .read (by decide) rfl rfl fun _ => rfl
theorem wrCrcResult (v : Word) : Statement (.wrCrcResult v) :=
  of_offset 0x0C (.write v) (by decide) rfl rfl fun _ => rfl
theorem rdRegionBase : Statement .rdRegionBase :=
  of_offset 0x10 .read (by decide) rfl rfl fun _ => rfl
theorem wrRegionBase (v : Word) : Statement (.wrRegionBase v) :=
  of_offset 0x10 (.write v) (by decide) rfl rfl fun _ => rfl
theorem rdRegionSize : Statement .rdRegionSize :=
  of_offset 0x14 .read (by decide) rfl rfl fun _ => rfl
theorem wrRegionSize (v : Word) : Statement (.wrRegionSize v) :=
  of_offset 0x14 (.write v) (by decide) rfl rfl fun _ => rfl
theorem rdHdrId : Statement .rdHdrId :=
  of_offset 0x18 .read (by decide) rfl rfl fun _ => rfl
theorem wrHdrId (v : Word) : Statement (.wrHdrId v) :=
  of_offset 0x18 (.write v) (by decide) rfl rfl fun _ => rfl
theorem rdHdrLen : Statement .rdHdrLen :=
  of_offset 0x1C .read (by decide) rfl rfl fun _ => rfl
theorem wrHdrLen (v : Word) : Statement (.wrHdrLen v) :=
  of_offset 0x1C (.write v) (by decide) rfl rfl fun _ => rfl
theorem rdExpected : Statement .rdExpected :=
  of_offset 0x20 .read (by decide) rfl rfl fun _ => rfl
theorem wrExpected (v : Word) : Statement (.wrExpected v) :=
  of_offset 0x20 (.write v) (by decide) rfl rfl fun _ => rfl
theorem rdComputed : Statement .rdComputed :=
  of_offset 0x24 .read (by decide) rfl rfl fun _ => rfl
theorem wrComputed (v : Word) : Statement (.wrComputed v) :=
  of_offset 0x24 (.write v) (by decide) rfl rfl fun _ => rfl
theorem rdArgOffset : Statement .rdArgOffset :=
  of_offset 0x28 .read (by decide) rfl rfl fun _ => rfl
theorem wrArgOffset (v : Word) : Statement (.wrArgOffset v) :=
  of_offset 0x28 (.write v) (by decide) rfl rfl fun _ => rfl
theorem rdArgSize : Statement .rdArgSize :=
  of_offset 0x2C .read (by decide) rfl rfl fun _ => rfl
theorem wrArgSize (v : Word) : Statement (.wrArgSize v) :=
  of_offset 0x2C (.write v) (by decide) rfl rfl fun _ => rfl
theorem rdArgDest : Statement .rdArgDest :=
  of_offset 0x30 .read (by decide) rfl rfl fun _ => rfl
theorem wrArgDest (v : Word) : Statement (.wrArgDest v) :=
  of_offset 0x30 (.write v) (by decide) rfl rfl fun _ => rfl
theorem rdRdata : Statement .rdRdata :=
  of_offset 0x34 .read (by decide) rfl rfl fun _ => rfl
theorem wrRdata (v : Word) : Statement (.wrRdata v) :=
  of_offset 0x34 (.write v) (by decide) rfl rfl fun _ => rfl
theorem slverr38R : Statement .slverr38R :=
  of_offset 0x38 .read (by decide) rfl rfl fun _ => rfl
theorem slverr38W (v : Word) : Statement (.slverr38W v) :=
  of_offset 0x38 (.write v) (by decide) rfl rfl fun _ => rfl
theorem slverr3cR : Statement .slverr3cR :=
  of_offset 0x3C .read (by decide) rfl rfl fun _ => rfl
theorem slverr3cW (v : Word) : Statement (.slverr3cW v) :=
  of_offset 0x3C (.write v) (by decide) rfl rfl fun _ => rfl

end Sys2Proof.Laws.RoundTrip
end

