-- ==== Sys2Proof/Laws/Step.lean ====
section
/-! SUPPORT. What a step can do, said once: the state it reaches is that of one of the host's events. -/

namespace Sys2Proof.Machine
open Sys2Proof

/-- To show a relation between the state before an instruction and the state it reaches: show it for a
command, a CMD write, a register read, another register write, and SLVERR. -/
theorem exec_reaches {P : State → Prop} {i : Instr} {s t : State} (h : Reaches (exec i s) t)
    (command : ∀ c : Command, i = c.toInstr → Reaches (execCommand c s) t → P t)
    (cmdWrite : ∀ w, i = .wrCmd w →
      Reaches (execCommand (decodeCommand w) (s.log (.regWrite 0x00 w))) t → P t)
    (read : ∀ (r : Reg) (v : Word), i = r.rdInstr → P (s.answered r.offset v))
    (write : ∀ (r : Reg) (v : Word), i = r.wrInstr v → P ((s.writeReg v r).accepted r.offset v))
    (readError : ∀ (off : Nat) (v : Word), (i = .slverr38R ∨ i = .slverr3cR) → P (s.readErrored off v))
    (writeError : ∀ (off : Nat) (v : Word), (i = .slverr38W v ∨ i = .slverr3cW v) →
      P (s.writeErrored off v)) : P t := by
  rcases exec_cases i s with ⟨c, hi, e⟩ | ⟨w, hi, e⟩ | ⟨r, hi, e⟩ | ⟨r, v, _, hi, e⟩ | ⟨off, hi, e⟩ |
    ⟨off, v, hi, e⟩ <;> rw [e] at h
  · exact command c hi h
  · exact cmdWrite w hi h
  · simp only [portRead, reaches_next] at h; subst h; exact read r _ hi
  · simp only [portWrite, reaches_next] at h; subst h; exact write r v hi
  · simp only [busErrorRead, reaches_next] at h; subst h; exact readError off _ hi
  · simp only [busErrorWrite, reaches_next] at h; subst h; exact writeError off v hi

/-- The same for one register access. -/
theorem serveAccess_reaches {P : State → Prop} {a : Access} {s t : State}
    (h : Reaches (serveAccess a s) t) (outside : P s)
    (instr : ∀ i, Reaches (exec i s) t → P t)
    (readError : ∀ (off : Nat) (v : Word), P (s.readErrored off v))
    (writeError : ∀ (off : Nat) (v : Word), P (s.writeErrored off v)) : P t := by
  have error (off : Nat) (op : Transfer) (h : Reaches (busError off op s) t) : P t := by
    cases op with
    | read => simp only [busError, busErrorRead, reaches_next] at h; subst h; exact readError _ _
    | write v => simp only [busError, busErrorWrite, reaches_next] at h; subst h; exact writeError _ _
  unfold serveAccess at h
  split at h
  · exact instr _ h
  · simp only [reaches_next] at h; subst h; exact outside
  · exact error _ _ h
  · exact error _ _ h

/-- The events of a command since it began are the ones it added. -/
theorem eventsSince_of_history {s t : State} {es : List Event} (h : t.history = es ++ s.history) :
    eventsSince s t = es.reverse := by
  simp [eventsSince, h]

/-- A command is refused only on a platform whose two spaces are one memory (R81; log 8). -/
theorem execCommand_refused {c : Command} {s : State} {q : Refusal} (h : execCommand c s = .refused q) :
    s.platform.shared = true ∧ q.reached.isSome = true := by
  have scalar (n : Nat) (h : readScalar n s = .refused q) : False := by
    have hr := readScalar_run n s
    rw [h] at hr
    generalize hq : (Host.Outcome.refused q : Result) = r at hr
    cases hr <;> cases hq
  cases c with
  | crcReset | crcUpdate | crcFinalize | illegal => cases h
  | readScalarB => exact (scalar 1 h).elim
  | readScalarH => exact (scalar 2 h).elim
  | readScalarW => exact (scalar 4 h).elim
  | validate =>
    have hr := execValidate_run s
    rw [show execValidate s = .refused q from h] at hr
    generalize hq : (Host.Outcome.refused q : Result) = r at hr
    cases hr <;> cases hq
  | readField =>
    have hr := execReadField_run s
    rw [show execReadField s = .refused q from h] at hr
    generalize hq : (Host.Outcome.refused q : Result) = r at hr
    cases hr with
    | overlaps bs b _ _ _ _ _ _ ho =>
      cases hq
      exact ⟨(Bool.and_eq_true_iff.1 ho).1, rfl⟩
    | _ => cases hq

/-- Everything a reset during a CMD write does: the command is cut off after `k` of its accesses, or it is
refused as it would be without the reset (R241; log 17). -/
theorem serveResetDuring_cases (w : Word) (k : Nat) (s : State) :
    (∃ u, Reaches (exec (.wrCmd w) s) u ∧
      serveResetDuring w k s = .next (abortAfter k (s.log (.regWrite 0x00 w)) u)) ∨
    (∃ q, exec (.wrCmd w) s = .refused q ∧ s.platform.shared = true ∧
      serveResetDuring w k s = .refused q) := by
  rw [execWrCmd_eq]
  simp only [serveResetDuring, show Reg.cmd.offset = 0x00 from rfl]
  cases hr : execCommand (decodeCommand w) (s.log (.regWrite 0x00 w)) with
  | next u => exact .inl ⟨u, by simp, rfl⟩
  | fault f => exact .inl ⟨f.reached, by simp, rfl⟩
  | refused q =>
    obtain ⟨hs, hq⟩ := execCommand_refused hr
    obtain ⟨u, hu⟩ := Option.isSome_iff_exists.1 hq
    simp only [hu]
    split
    · exact .inr ⟨q, rfl, hs, rfl⟩
    · exact .inl ⟨u, by simp [hu], rfl⟩

/-- The same for a step.  A reset during a command reaches the aborted state, or, where the command is
refused before the reset, the state the command reached. -/
theorem step_reaches {P : State → Prop} {s t : State} (h : Reaches (step s) t)
    (idle : s.pending = [] → P s)
    (access : ∀ a rest, s.pending = .access a :: rest →
      Reaches (serveAccess a { s with pending := rest }) t → P t)
    (reset : ∀ rest, s.pending = .reset :: rest → P (State.hardwareReset { s with pending := rest }))
    (resetDuring : ∀ w k rest u, s.pending = .resetDuring w k :: rest →
      Reaches (execCommand (decodeCommand w)
        (({ s with pending := rest } : State).log (.regWrite 0x00 w))) u →
      (t = u ∨ t = abortAfter k (({ s with pending := rest } : State).log (.regWrite 0x00 w)) u) →
      P t) : P t := by
  unfold step at h
  split at h
  · rename_i hp
    simp only [reaches_next] at h; subst h; exact idle hp
  · rename_i e rest hp
    cases e with
    | access a => exact access a rest hp h
    | reset => simp only [serve, reaches_next] at h; subst h; exact reset rest hp
    | resetDuring w k =>
      simp only [serve, serveResetDuring] at h
      have goOn := fun u => resetDuring w k rest u hp
      rw [show (0x00 : Nat) = Reg.cmd.offset from rfl] at goOn
      generalize execCommand (decodeCommand w) (State.log _ _) = r at h goOn
      cases r with
      | next u => simp only [reaches_next] at h; exact goOn u (by simp) (.inr h)
      | fault f => simp only [reaches_next] at h; exact goOn f.reached (by simp) (.inr h)
      | refused r =>
        simp only at h
        cases hq : r.reached with
        | none => rw [hq] at h; simp [hq] at h
        | some u =>
          rw [hq] at h
          simp only at h
          split at h
          · simp only [reaches_refused] at h; exact goOn t (by simpa using h) (.inl rfl)
          · simp only [reaches_next] at h; exact goOn u (by simpa using hq) (.inr h)

end Sys2Proof.Machine
end

