-- ==== Sys2Proof/Tests/Slice0.lean ====
section
/-! SUPPORT. The model's own tests: decoding of words written out from R91, R96 and R100; one-step tests
whose expected values are those of 95_test_vectors.md and of the rules' examples; and, for each statement
with hypotheses, a witness that meets them. -/

namespace Sys2Proof.Tests
open Sys2Proof Machine

/-! ### Helpers -/

/-- The state an outcome reaches; the reset state where it reaches none. -/
def reached : Result → State
  | .next t => t
  | .fault f => f.reached
  | .refused q => q.reached.getD State.reset

/-- Is the outcome a next state? -/
def isNext : Result → Bool
  | .next _ => true
  | .fault _ => false
  | .refused _ => false

theorem next_of_isNext {r : Result} (h : isNext r = true) : r = .next (reached r) := by
  cases r <;> simp_all [isNext, reached]

/-- Does the outcome carry a state? -/
def hasState : Result → Bool
  | .next _ => true
  | .fault _ => true
  | .refused q => q.reached.isSome

theorem reaches_of_hasState {r : Result} (h : hasState r = true) : Reaches r (reached r) := by
  cases r with
  | next t => simp [reached]
  | fault f => simp [reached]
  | refused q =>
    simp only [hasState, Option.isSome_iff_exists] at h
    obtain ⟨t, ht⟩ := h
    simp [reached, ht]

/-- Is the outcome the fault of an unanswered storage read at `a`? -/
def stuckReading (a : Addr) : Result → Bool
  | .fault (.storageStuck b _) => a == b
  | _ => false

/-- Is the outcome the fault of a destination write that is not admitted at `a`? -/
def stuckWriting (a : Addr) : Result → Bool
  | .fault (.destStuck b _) => a == b
  | _ => false

/-- Is the outcome the refusal of a write into the storage at `a`? -/
def overlaps (a : Addr) : Result → Bool
  | .refused (.destOverlapsStorage b _) => a == b
  | _ => false

/-- A storage with bytes from `a` upwards. -/
def storageAt (a : Addr) (bs : List Byte) : Memory := Memory.putBytes [] a bs

/-- The state after reset with bytes in storage at `base`, and the region registers set. -/
def ready (base size : Word) (bs : List Byte) : State :=
  { State.resetOn Platform.default (storageAt base bs) with regionBase := base, regionSize := size }

/-- The corrected block of the source's first scenario (E3). -/
def e3 : List Byte := [0xEE, 0x01, 0x00, 0x0D, 0x00, 0x01, 0x02, 0x03, 0x04, 0x46, 0x79, 0xB1, 0xF3]

/-- E3's region, before VALIDATE. -/
def before3 : State := ready 0x1000 13 e3

/-- E3's region, after VALIDATE (the values of E3). -/
def valid3 : State :=
  { before3 with
    vresult := .ok
    hdrId := { tag := 0xEE, major := 0x01, minor := 0x00 }
    hdrLen := 0x000D
    expected := 0xF3B17946
    computed := 0xF3B17946
    crcState := 0x0C4E86B9 }

/-- `valid3` with the argument registers set. -/
def field3 (off size : Half) (dest : Word) : State :=
  { valid3 with argOffset := off, argSize := size, argDest := dest }

/-- The bytes `bs` are read at `a` when each address gives its byte. -/
theorem answers_of_get {m : Memory} {a : Addr} {bs : List Byte}
    (h : ∀ i, i < bs.length → m.get (a + BitVec.ofNat 32 i).toNat = bs[i]?) : Answers m a bs := by
  intro i b hb
  have hi : i < bs.length := by
    by_contra hh
    rw [List.getElem?_eq_none (by omega)] at hb
    cases hb
  rw [h i hi, hb]

/-! ### Well-formedness: the ill-formed term is refused (R96, R196) -/

theorem test_illegalCmd_of_a_legal_word_is_ill_formed : (Instr.illegalCmd 0x00000001).wellFormed = false := by
  decide

theorem test_illegal_command_of_a_legal_word_is_ill_formed :
    (Command.illegal 0x0000FF02).wellFormed = false := by decide

/-! ### Decoding: one word for each constructor, from R91, R96, R97 and R100 -/

/-- A word written field by field as R91 draws it: RSV1, WIDTH, DATA8, RSV0, OPC. -/
def wordOf (rsv1 : BitVec 14) (width : BitVec 2) (data8 : BitVec 8) (rsv0 opc : BitVec 4) : Word :=
  rsv1 ++ width ++ data8 ++ rsv0 ++ opc

theorem test_decode_commands :
    [decodeCommand 0b00000000000000000000000000000001,
      decodeCommand 0b00000000000000000011000100000010,
      decodeCommand 0b00000000000000000000000000000011,
      decodeCommand 0b00000000000000000000000000000100,
      decodeCommand 0b00000000000000000000000000000101,
      decodeCommand 0b00000000000000000000000000000110,
      decodeCommand 0b00000000000000010000000000000110,
      decodeCommand 0b00000000000000100000000000000110,
      decodeCommand 0b00000000000000110000000000000110] =
    [.crcReset, .crcUpdate 0x31, .crcFinalize, .validate, .readField, .readScalarB, .readScalarH,
      .readScalarW, .illegal 0x00030006] := by decide

theorem test_decode_fields_as_R91_draws_them :
    decodeCommand (wordOf 0 2 0 0 6) = .readScalarW ∧ decodeCommand (wordOf 0 0 0xA5 0 2) = .crcUpdate 0xA5 ∧
    decodeCommand (wordOf 0 0 0 1 1) = .illegal 0x00000011 ∧
    decodeCommand (wordOf 0x1000 0 0 0 1) = .illegal 0x40000001 := by decide

/-- The illegal words of V-REG-07. -/
theorem test_decode_illegal_words :
    [decodeCommand 0x00000000, decodeCommand 0x00000007, decodeCommand 0x0000000F, decodeCommand 0x00000011,
      decodeCommand 0x00010002, decodeCommand 0x00000101, decodeCommand 0x40000001,
      decodeCommand 0x00000106, decodeCommand 0x00010004] =
    [.illegal 0x00000000, .illegal 0x00000007, .illegal 0x0000000F, .illegal 0x00000011,
      .illegal 0x00010002, .illegal 0x00000101, .illegal 0x40000001, .illegal 0x00000106,
      .illegal 0x00010004] := by decide

/-- The reads of R100, the window at 0x40000000. -/
theorem test_decode_reads :
    [0x40000000, 0x40000004, 0x40000008, 0x4000000C, 0x40000010, 0x40000014, 0x40000018, 0x4000001C,
      0x40000020, 0x40000024, 0x40000028, 0x4000002C, 0x40000030, 0x40000034, 0x40000038,
      (0x4000003C : Addr)].map (fun a => decodeAccess 0x40000000 { addr := a, width := 32, op := .read }) =
    [.rdCmd, .rdStatus, .rdCrcState, .rdCrcResult, .rdRegionBase, .rdRegionSize, .rdHdrId, .rdHdrLen,
      .rdExpected, .rdComputed, .rdArgOffset, .rdArgSize, .rdArgDest, .rdRdata, .slverr38R,
      .slverr3cR].map .instr := by decide

/-- The writes of R100. -/
theorem test_decode_writes :
    [0x40000000, 0x40000004, 0x40000008, 0x4000000C, 0x40000010, 0x40000014, 0x40000018, 0x4000001C,
      0x40000020, 0x40000024, 0x40000028, 0x4000002C, 0x40000030, 0x40000034, 0x40000038,
      (0x4000003C : Addr)].map (fun a => decodeAccess 0x40000000 { addr := a, width := 32, op := .write 7 }) =
    [.wrCmd 7, .wrStatus 7, .wrCrcState 7, .wrCrcResult 7, .wrRegionBase 7, .wrRegionSize 7, .wrHdrId 7,
      .wrHdrLen 7, .wrExpected 7, .wrComputed 7, .wrArgOffset 7, .wrArgSize 7, .wrArgDest 7, .wrRdata 7,
      .slverr38W 7, .slverr3cW 7].map .instr := by decide

/-- V-REG-06: the accesses that are no instruction. -/
theorem test_decode_bad_accesses :
    decodeAccess 0x40000000 { addr := 0x40000004, width := 16, op := .read } = .badWidth ∧
    decodeAccess 0x40000000 { addr := 0x40000002, width := 32, op := .read } = .misaligned ∧
    decodeAccess 0x40000000 { addr := 0x40000040, width := 32, op := .read } = .notSelected ∧
    decodeAccess 0x40000000 { addr := 0x3FFFFFFC, width := 32, op := .read } = .notSelected := by decide

/-- The table's numbering: a 32-bit word is a command word, a shorter one a window offset (log 2). -/
theorem test_table_words :
    decodeTableWord 32 0x00003102 = some (.crcUpdate 0x31) ∧ decodeTableWord 8 0x34 = some .rdRdata ∧
    decodeTableWord 8 0x38 = some .slverr38R ∧ decodeTableWord 8 0x02 = none := by decide

/-! ### CRC engine: V-CRC-01, 02, 05, 08, 13, 14, 16 -/

theorem test_crcReset :
    (reached (exec .crcReset { State.reset with crcState := 0x340BC6D9, cerr := .illegalCmd })).crcState =
      0xFFFFFFFF := by decide

theorem test_crcUpdate_first_byte :
    (reached (exec (.crcUpdate 0x31) State.reset)).crcState = 0x7C231048 := by decide +kernel

theorem test_crcUpdate_zero_is_a_fixed_point :
    (reached (exec (.crcUpdate 0x00) { State.reset with crcState := 0 })).crcState = 0 ∧
    (reached (exec (.crcUpdate 0x00) State.reset)).crcState = 0x2DFD1072 := by decide +kernel

/-- V-CRC-16, the first three iterations. -/
theorem test_crcShift_trace :
    crcShift 0xFFFFFFFF 0x31 = 0x7FFFFFFF ∧ crcShift 0x7FFFFFFF 0x18 = 0xD2477CDF ∧
    crcShift 0xD2477CDF 0x0C = 0x849B3D4F := by decide

theorem test_crcFinalize :
    (reached (exec .crcFinalize { State.reset with crcState := 0x340BC6D9 })).rdata = 0xCBF43926 ∧
    (reached (exec .crcFinalize { State.reset with crcState := 0x340BC6D9 })).crcState = 0x340BC6D9 := by
  decide

/-- V-CRC-05. -/
theorem test_check_value :
    crcOf [0x31, 0x32, 0x33, 0x34, 0x35, 0x36, 0x37, 0x38, 0x39] = 0xCBF43926 := by decide +kernel

/-! ### VALIDATE: V-VAL-01, 02, 03, 05, 06, 07, 08, 10, 11 -/

/-- V-VAL-01 and E3, with the 18 reads in the order of R152. -/
theorem test_validate_e3 :
    (reached (exec .validate before3)).statusWord = 0x09 ∧
    (reached (exec .validate before3)).readReg .hdrId = 0x000001EE ∧
    (reached (exec .validate before3)).readReg .expected = 0xF3B17946 ∧
    (reached (exec .validate before3)).readReg .computed = 0xF3B17946 ∧
    (reached (exec .validate before3)).crcState = 0x0C4E86B9 ∧
    (reached (exec .validate before3)).history.reverse =
      ([0, 1, 2, 3, 4, 0, 1, 2, 3, 4, 5, 6, 7, 8, 9, 10, 11, 12].map fun k =>
        Event.storageRead (0x1000 + BitVec.ofNat 32 k) (e3.getD k 0)) := by decide +kernel

/-- V-VAL-02 (E4: last byte F4), 03 (E5: tag EF), 05 (no field data) and 10 (the region wraps). -/
theorem test_validate_verdicts :
    (reached (exec .validate (ready 0x1000 13 (e3.dropLast ++ [0xF4])))).statusWord = 0x02 ∧
    (reached (exec .validate (ready 0x1000 13
      [0xEF, 0x01, 0x00, 0x0D, 0x00, 0x01, 0x02, 0x03, 0x04, 0x05, 0x6D, 0xCA, 0xE4]))).statusWord = 0x03 ∧
    (reached (exec .validate (ready 0x40 9
      [0xEE, 0x02, 0x03, 0x09, 0x00, 0x38, 0x43, 0x4B, 0x28]))).readReg .hdrId = 0x000302EE ∧
    (reached (exec .validate (ready 0xFFFFFFFC 13 e3))).statusWord = 0x09 := by decide +kernel

/-! ### Field access: V-FLD-01 to 12 -/

theorem test_readField_copies_and_wraps :
    (reached (exec .readField (field3 0 4 0x2000))).dest =
      [(0x2000, 0x01), (0x2001, 0x02), (0x2002, 0x03), (0x2003, 0x04)] ∧
    (reached (exec .readField (field3 2 2 0xFFFFFFFF))).dest = [(0x00000000, 0x04), (0xFFFFFFFF, 0x03)] := by
  decide

theorem test_readField_bounds :
    (reached (exec .readField (field3 1 4 0x2000))).statusWord = 0x29 ∧
    (reached (exec .readField (field3 4 0 0))).statusWord = 0x09 ∧
    (reached (exec .readField (field3 5 0 0))).statusWord = 0x29 ∧
    (reached (exec .readField State.reset)).statusWord = 0x30 := by decide

theorem test_readScalarB :
    (reached (exec .readScalarB (field3 3 0 0))).rdata = 0x00000004 ∧
    (reached (exec .readScalarB (field3 4 0 0))).statusWord = 0x29 ∧
    (reached (exec .readScalarB State.reset)).statusWord = 0x30 := by decide

theorem test_readScalarH :
    (reached (exec .readScalarH (field3 1 0 0))).rdata = 0x00000302 ∧
    (reached (exec .readScalarH (field3 3 0 0))).statusWord = 0x29 := by decide

theorem test_readScalarW :
    (reached (exec .readScalarW (field3 0 0 0))).rdata = 0x04030201 ∧
    (reached (exec .readScalarW (field3 1 0 0))).statusWord = 0x29 ∧
    (reached (exec .readScalarW (field3 0xFFFF 0 0))).statusWord = 0x29 := by decide

/-! ### Register access and illegal commands: V-REG-01 to 10 -/

theorem test_reset_reads :
    Reg.all.map State.reset.readReg = [0, 0, 0xFFFFFFFF, 0, 0, 0, 0, 0, 0, 0, 0, 0, 0, 0] := by decide

theorem test_reads_answer_with_the_value :
    (reached (exec .rdStatus valid3)).response = .readData 0x09 ∧
    (reached (exec .rdHdrId valid3)).response = .readData 0x000001EE ∧
    (reached (exec .rdCrcResult valid3)).response = .readData 0xF3B17946 ∧
    (reached (exec .rdCmd valid3)).response = .readData 0 := by decide

/-- V-REG-02 and V-REG-03. -/
theorem test_wrArgOffset_and_wrArgSize_keep_sixteen_bits :
    (reached (exec (.wrArgOffset 0x12340007) State.reset)).readReg .argOffset = 0x00000007 ∧
    (reached (exec (.wrArgSize 0xFFFFFFFF) State.reset)).readReg .argSize = 0x0000FFFF := by decide

/-- R193 for the 32-bit registers, and V-REG-10: VALID survives a region write. -/
theorem test_wrRegion_and_wrArgDest :
    (reached (exec (.wrRegionBase 0xFFFFFFFC) valid3)).regionBase = 0xFFFFFFFC ∧
    (reached (exec (.wrRegionSize 0xFFFFFFFF) valid3)).regionSize = 0xFFFFFFFF ∧
    (reached (exec (.wrArgDest 0x2000) valid3)).argDest = 0x2000 ∧
    (reached (exec (.wrRegionBase 0xFFFFFFFC) valid3)).statusWord = 0x09 := by decide

/-- V-REG-04 and V-REG-05. -/
theorem test_writes_to_read_only_registers_are_ignored :
    (reached (exec (.wrCrcState 0x12345678) valid3)).crcState = 0x0C4E86B9 ∧
    (reached (exec (.wrStatus 0xFFFFFFFF) valid3)).statusWord = 0x09 ∧
    (reached (exec (.wrRdata 1) valid3)).rdata = 0 := by decide

/-- V-REG-06. -/
theorem test_reserved_offset_sets_busFault :
    (reached (exec .slverr38R valid3)).busFault = true ∧
    (reached (exec (.slverr3cW 5) valid3)).response = .writeError ∧
    (reached (exec .slverr38R valid3)).statusWord = 0x09 := by decide

/-- V-REG-07 (word 0) and V-REG-08. -/
theorem test_wrCmd :
    (reached (exec (.wrCmd 0x00000000) State.reset)).statusWord = 0x10 ∧
    (reached (exec (.wrCmd 0x00000102) { State.reset with cerr := .illegalCmd })).crcState = 0x5AFA20E4 ∧
    (reached (exec (.wrCmd 0x00000102) { State.reset with cerr := .illegalCmd })).cerr = .none := by
  decide +kernel

theorem test_illegalCmd :
    (reached (exec (.illegalCmd 0x00000007) valid3)).statusWord = 0x19 ∧
    (reached (exec (.illegalCmd 0x00000007) valid3)).crcState = 0x0C4E86B9 := by decide

/-- The first line of P2 runs from reset: the host's write reaches REGION_BASE at the next step. -/
theorem test_program_line_runs_at_the_next_step :
    (reached (step (State.reset.loadProgram [.pbRegion 0x1000 13]))).regionBase = 0x1000 := by decide

/-- R241: the fourth byte's write is lost, the first three stay. -/
theorem test_reset_during_readField :
    (reached (step { field3 0 4 0x2000 with pending := [.resetDuring 0x00000005 7] })).dest =
      [(0x2000, 0x01), (0x2001, 0x02), (0x2002, 0x03)] := by decide

/-! ### Witnesses: states and operands that meet the hypotheses of each statement

A statement with several clauses has a witness for each, at the boundaries of its ranges. -/

theorem storage3_answers : Answers before3.storage 0x1000 e3 := answers_of_get (by decide)

theorem witness_DecodeOfEncodeIsTheInstruction :
    (Instr.illegalCmd 0x00000000).wellFormed = true ∧ (Instr.crcUpdate 0xFF).wellFormed = true := by decide

/-- A word of each row, and one of none. -/
theorem witness_DecodeFollowsTheOpcodeMap :
    ((0x0000FF02 : Word) &&& 0xFFFF00FF = 0x00000002) ∧ ((0x00000001 : Word) &&& 0xFFFFFFFF = 0x00000001) ∧
    ((0x00000003 : Word) &&& 0xFFFFFFFF = 0x00000003) ∧ ((0x00000004 : Word) &&& 0xFFFFFFFF = 0x00000004) ∧
    ((0x00000005 : Word) &&& 0xFFFFFFFF = 0x00000005) ∧ ((0x00000006 : Word) &&& 0xFFFFFFFF = 0x00000006) ∧
    ((0x00010006 : Word) &&& 0xFFFFFFFF = 0x00010006) ∧ ((0x00020006 : Word) &&& 0xFFFFFFFF = 0x00020006) ∧
    legalWord 0x00000007 = false := by decide

/-- Each disjunct, and no disjunct. -/
theorem witness_IllegalWordsOnlySetCerr :
    (0x00000000 : Word).extractLsb' 0 4 = 0#4 ∧ 7#4 ≤ (0x00000007 : Word).extractLsb' 0 4 ∧
    (0x00000011 : Word).extractLsb' 4 4 ≠ 0#4 ∧ (0x40000001 : Word).extractLsb' 18 14 ≠ 0#14 ∧
    ((0x00000101 : Word).extractLsb' 8 8 ≠ 0#8 ∧ (0x00000101 : Word).extractLsb' 0 4 ≠ 2#4) ∧
    ((0x00010002 : Word).extractLsb' 16 2 ≠ 0#2 ∧ (0x00010002 : Word).extractLsb' 0 4 ≠ 6#4) ∧
    (0x00030006 : Word).extractLsb' 16 2 = 3#2 ∧ decodeCommand 0x00000007 = .illegal 0x00000007 ∧
    decodeCommand 0x00020006 ≠ .illegal 0x00020006 := by decide

theorem witness_WindowOffsetsDecode :
    decodeAccess 0x40000000 { addr := 0x4000003C, width := 32, op := .read } = .instr .slverr3cR := by decide

theorem witness_CrcResetSetsAllOnes :
    (0x00000101 : Word).extractLsb' 0 4 = 1#4 ∧ (0x00000101 : Word) ≠ 0x00000001 := by decide

theorem witness_CrcUpdateConsumesOneByte :
    (0x00010002 : Word).extractLsb' 0 4 = 2#4 ∧ (0x00010002 : Word).extractLsb' 16 2 ≠ 0#2 ∧
    (0x00000012 : Word).extractLsb' 4 4 ≠ 0#4 ∧ (0x00040002 : Word).extractLsb' 18 14 ≠ 0#14 := by decide

theorem witness_CrcFinalizeLatchesTheComplement : State.reset.crcState = 0xFFFFFFFF := by decide

theorem witness_CrcDetectsAnyOneByteChange : (0x01 : Byte) ≠ 0x00 := by decide

/-- The reset size 0, and the largest small size (V-VAL-08, V-VAL-09). -/
theorem witness_ValidateRejectsASmallRegionUnread :
    State.reset.regionSize.toNat < 5 ∧ (ready 0x1000 4 e3).regionSize.toNat < 5 := by decide

/-- V-VAL-06 (L = 8), V-VAL-07 (L = 13 in a region of 12), and the smallest region. -/
theorem witness_ValidateRejectsABadLength :
    (5 ≤ (ready 0 10 [0xEE, 1, 0, 8, 0]).regionSize.toNat ∧
      Answers (ready 0 10 [0xEE, 1, 0, 8, 0]).storage 0 [0xEE, 1, 0, 8, 0] ∧
      (8 : Byte).toNat + 256 * (0 : Byte).toNat < 9) ∧
    (5 ≤ (ready 0x1000 12 e3).regionSize.toNat ∧
      Answers (ready 0x1000 12 e3).storage 0x1000 [0xEE, 1, 0, 0x0D, 0] ∧
      (ready 0x1000 12 e3).regionSize.toNat < (0x0D : Byte).toNat + 256 * (0 : Byte).toNat) ∧
    5 ≤ (ready 0x1000 5 e3).regionSize.toNat :=
  ⟨⟨by decide, answers_of_get (by decide), by decide⟩, ⟨by decide, answers_of_get (by decide), by decide⟩,
    by decide⟩

/-- E3, with `L = REGION_SIZE`, and V-VAL-05 with no field data, the shortest block. -/
theorem witness_ValidateGivesTheVerdict :
    ((0x0D : Byte).toNat + 256 * (0 : Byte).toNat = [1, 2, 3, (4 : Byte)].length + 9 ∧
      [1, 2, 3, (4 : Byte)].length + 9 ≤ before3.regionSize.toNat ∧
      Answers before3.storage before3.regionBase
        (0xEE :: 0x01 :: 0x00 :: 0x0D :: 0x00 :: ([1, 2, 3, 4] ++ [0x46, 0x79, 0xB1, 0xF3]))) ∧
    ((9 : Byte).toNat + 256 * (0 : Byte).toNat = ([] : List Byte).length + 9 ∧
      Answers (ready 0x40 9 [0xEE, 2, 3, 9, 0, 0x38, 0x43, 0x4B, 0x28]).storage 0x40
        (0xEE :: 2 :: 3 :: 9 :: 0 :: ([] ++ [0x38, 0x43, 0x4B, 0x28]))) :=
  ⟨⟨by decide, by decide, storage3_answers⟩, ⟨by decide, answers_of_get (by decide)⟩⟩

/-- Stuck at the first byte, at the last header byte, in the CRC pass (V-VAL-11), and at the last
checksum byte. -/
theorem witness_ValidateIsStuckAtTheFirstSilentAddress :
    ∀ n ∈ [0, 4, 7, 12],
      5 ≤ (ready 0x1000 13 (e3.take n)).regionSize.toNat ∧
      Answers (ready 0x1000 13 (e3.take n)).storage 0x1000 (e3.take n) ∧
      (ready 0x1000 13 (e3.take n)).storage.get
        ((0x1000 : Addr) + BitVec.ofNat 32 (e3.take n).length).toNat = none ∧
      ((e3.take n).length < 5 ∨
        ((e3.take n)[3]? = some 0x0D ∧ (e3.take n)[4]? = some 0x00 ∧ (e3.take n).length < 13)) := by
  intro n hn
  refine ⟨?_, answers_of_get ?_, ?_, ?_⟩ <;> revert n <;> decide

theorem test_validate_stuck :
    stuckReading 0x1007 (exec .validate (ready 0x1000 13 (e3.take 7))) = true := by decide +kernel

/-- VALIDATE answers a next state at each of its ends (for ValidateFrame, ValidateLeavesTheRunningRegister,
ValidateOutcomePriority, ValidateRepeatsItself and ValidateReadsStayInsideTheRegion). -/
theorem witness_validate_ends :
    ∀ s ∈ [State.reset, ready 0 10 [0xEE, 1, 0, 8, 0], ready 0x1000 12 e3, before3,
        ready 0x1000 13 (e3.dropLast ++ [0xF4])],
      exec .validate s = .next (reached (exec .validate s)) := by
  intro s hs
  refine next_of_isNext ?_
  revert s
  decide +kernel

/-- E6: the first and the last covered byte, and the bytes beside the length. -/
theorem witness_CorruptedByteIsAChecksumMismatch :
    exec .validate before3 = .next (reached (exec .validate before3)) ∧
    (reached (exec .validate before3)).vresult = .ok ∧
    ∀ p ∈ [(0, (0xEE : Byte), (0xEF : Byte)), (2, 0x00, 0x01), (5, 0x01, 0x00), (8, 0x04, 0x05)],
      p.1 < (reached (exec .validate before3)).hdrLen.toNat - 4 ∧ p.1 ≠ 3 ∧ p.1 ≠ 4 ∧
      before3.storage.get (before3.regionBase + BitVec.ofNat 32 p.1).toNat = some p.2.1 ∧ p.2.2 ≠ p.2.1 :=
  ⟨next_of_isNext (by decide +kernel), by decide +kernel, by decide +kernel⟩

theorem accepts3 (d : Addr) (n : Nat) : Accepts valid3 d n := by
  intro i _
  have hall : ∀ a : Addr, valid3.destAdmits a = true := by
    intro a
    have := a.isLt
    simp [State.destAdmits, valid3, before3, ready, State.resetOn, Platform.default]
    omega
  exact ⟨hall _, rfl⟩

/-- E8, an instance: E3's block. -/
theorem witness_AssembledBlockValidatesAndReadsBack :
    (0xEE : Byte) = before3.platform.tagSentinel ∧
    (0x0D : Byte).toNat + 256 * (0 : Byte).toNat = [1, 2, 3, (4 : Byte)].length + 9 ∧
    [1, 2, 3, (4 : Byte)].length + 9 ≤ before3.regionSize.toNat ∧
    (let c := crcOf (0xEE :: 0x01 :: 0x00 :: 0x0D :: 0x00 :: [1, 2, 3, 4])
     Answers before3.storage before3.regionBase
      (0xEE :: 0x01 :: 0x00 :: 0x0D :: 0x00 ::
        ([1, 2, 3, 4] ++ [c.extractLsb' 0 8, c.extractLsb' 8 8, c.extractLsb' 16 8, c.extractLsb' 24 8]))) ∧
    Accepts before3 0x2000 [1, 2, 3, (4 : Byte)].length := by
  refine ⟨by decide, by decide, by decide, ?_, accepts3 0x2000 4⟩
  have hc : crcOf (0xEE :: 0x01 :: 0x00 :: 0x0D :: 0x00 :: [1, 2, 3, 4]) = 0xF3B17946 := by decide +kernel
  simp only [hc]
  exact storage3_answers

theorem witness_FieldCommandsNeedAValidatedView :
    State.reset.vresult ≠ .ok ∧ (ready 0x1000 13 e3).vresult ≠ .ok := by decide

/-- Each command one byte past the end of the field data (V-FLD-02, 07, 09, 11), and far past it
(V-FLD-12). -/
theorem witness_FieldCommandsRespectTheBound :
    valid3.vresult = .ok ∧
    ∀ p ∈ [((1 : Half), (4 : Nat)), (4, 1), (3, 2), (1, 4), (0xFFFF, 4)],
      ((field3 p.1 4 0).hdrLen.toNat : Int) - 9 <
        ((field3 p.1 4 0).argOffset.toNat : Int) + (p.2 : Int) := by decide

/-- V-FLD-01 (up to the last field byte) and V-FLD-03 (the destination wraps). -/
theorem witness_ReadFieldCopiesTheBytes :
    (field3 0 4 0x2000).vresult = .ok ∧ [1, 2, 3, (4 : Byte)].length = (field3 0 4 0x2000).argSize.toNat ∧
    (field3 0 4 0x2000).argOffset.toNat + (field3 0 4 0x2000).argSize.toNat + 9 ≤
      (field3 0 4 0x2000).hdrLen.toNat ∧
    Answers valid3.storage (valid3.regionBase + BitVec.ofNat 32 (5 + 0)) [1, 2, 3, 4] ∧
    Accepts (field3 0 4 0x2000) 0x2000 4 ∧
    [3, (4 : Byte)].length = (field3 2 2 0xFFFFFFFF).argSize.toNat ∧
    (field3 2 2 0xFFFFFFFF).argOffset.toNat + (field3 2 2 0xFFFFFFFF).argSize.toNat + 9 ≤
      (field3 2 2 0xFFFFFFFF).hdrLen.toNat ∧
    Answers valid3.storage (valid3.regionBase + BitVec.ofNat 32 (5 + 2)) [3, 4] ∧
    Accepts (field3 2 2 0xFFFFFFFF) 0xFFFFFFFF 2 :=
  ⟨by decide, by decide, by decide, answers_of_get (by decide), accepts3 0x2000 4, by decide,
    by decide, answers_of_get (by decide), accepts3 0xFFFFFFFF 2⟩

/-- V-FLD-04 and V-FLD-05: at the end of the field data, and one past it. -/
theorem witness_ReadFieldOfSizeZero :
    (field3 4 0 0).vresult = .ok ∧ (field3 4 0 0).argSize = 0 ∧
    ((field3 4 0 0).argOffset.toNat : Int) ≤ ((field3 4 0 0).hdrLen.toNat : Int) - 9 ∧
    (field3 5 0 0).vresult = .ok ∧ (field3 5 0 0).argSize = 0 ∧
    ((field3 5 0 0).hdrLen.toNat : Int) - 9 < ((field3 5 0 0).argOffset.toNat : Int) := by decide

/-- A platform that accepts writes below 0x2002 only. -/
def narrow3 : State :=
  { field3 0 4 0x2000 with
    platform := { Platform.default with destAdmits := [{ lo := 0, hi := 0x2001 }] } }

theorem witness_ReadFieldIsStuckAtARefusedDestination :
    narrow3.vresult = .ok ∧ [1, (2 : Byte)].length < narrow3.argSize.toNat ∧
    narrow3.argOffset.toNat + narrow3.argSize.toNat + 9 ≤ narrow3.hdrLen.toNat ∧
    Answers narrow3.storage (narrow3.regionBase + BitVec.ofNat 32 (5 + narrow3.argOffset.toNat))
      ([1, 2] ++ [3]) ∧
    Accepts narrow3 narrow3.argDest [1, (2 : Byte)].length ∧
    narrow3.destAdmits (narrow3.argDest + BitVec.ofNat 32 [1, (2 : Byte)].length) = false :=
  ⟨by decide, by decide, by decide, answers_of_get (by decide), by unfold Accepts; decide, by decide⟩

theorem test_readField_stuck_keeps_earlier_bytes :
    stuckWriting 0x2002 (exec .readField narrow3) = true ∧
    (reached (exec .readField narrow3)).dest = [(0x2000, 1), (0x2001, 2)] := by decide

/-- One memory for both spaces, and a destination whose second byte is the given address. -/
def shared3 (size : Word) (dest : Word) : State :=
  { field3 0 4 dest with regionSize := size, platform := { Platform.default with shared := true } }

/-- A destination that reaches a storage address (0x1000), and one that reaches the region where the
storage lists nothing (0x1020, the last of a region of 33 bytes). -/
theorem witness_OverlappingDestinationIsRefused :
    (∀ s ∈ [shared3 13 0x0FFF, shared3 33 0x1020], s.vresult = .ok ∧ s.platform.shared = true ∧
      s.argOffset.toNat + s.argSize.toNat + 9 ≤ s.hdrLen.toNat) ∧
    Answers (shared3 13 0x0FFF).storage (0x1000 + BitVec.ofNat 32 (5 + 0)) ([1] ++ [2]) ∧
    Accepts (shared3 13 0x0FFF) 0x0FFF 1 ∧
    (shared3 13 0x0FFF).destAdmits (0x0FFF + BitVec.ofNat 32 1) = true ∧
    (shared3 13 0x0FFF).storage.get ((0x0FFF : Addr) + BitVec.ofNat 32 1).toNat ≠ none ∧
    Answers (shared3 33 0x1020).storage (0x1000 + BitVec.ofNat 32 (5 + 0)) ([] ++ [1]) ∧
    Accepts (shared3 33 0x1020) 0x1020 0 ∧
    (shared3 33 0x1020).destAdmits (0x1020 + BitVec.ofNat 32 0) = true ∧
    (0x1020 : Addr) + BitVec.ofNat 32 0 = (shared3 33 0x1020).regionBase + BitVec.ofNat 32 32 :=
  ⟨by decide, answers_of_get (by decide), by unfold Accepts; decide, by decide, by decide,
    answers_of_get (by decide), accepts_zero _ _, by decide, by decide⟩

theorem test_overlapping_destination :
    overlaps 0x1000 (exec .readField (shared3 13 0x0FFF)) = true ∧
    overlaps 0x1020 (exec .readField (shared3 33 0x1020)) = true ∧
    isNext (exec .readField (shared3 33 0x1021)) = true := by decide

/-- V-FLD-06, 08, 10: each at its largest offset, or up to the last field byte. -/
theorem witness_ReadScalarValues :
    valid3.vresult = .ok ∧ 3 + 1 + 9 ≤ (field3 3 0 0).hdrLen.toNat ∧ 2 + 2 + 9 ≤ (field3 2 0 0).hdrLen.toNat ∧
    0 + 4 + 9 ≤ (field3 0 0 0).hdrLen.toNat ∧
    Answers valid3.storage (valid3.regionBase + BitVec.ofNat 32 (5 + 3)) [4] ∧
    Answers valid3.storage (valid3.regionBase + BitVec.ofNat 32 (5 + 2)) [3, 4] ∧
    Answers valid3.storage (valid3.regionBase + BitVec.ofNat 32 (5 + 0)) [1, 2, 3, 4] :=
  ⟨by decide, by decide, by decide, by decide, answers_of_get (by decide), answers_of_get (by decide),
    answers_of_get (by decide)⟩

/-- A validated view over a storage that has gone silent at its field data (a state no run reaches, and
one the statement covers). -/
def silent3 (n : Nat) : State := { field3 0 4 0x2000 with storage := storageAt 0x1000 (e3.take n) }

/-- Silent at the first field byte, and at the last. -/
theorem witness_FieldCommandsAreStuckAtASilentAddress :
    ∀ p ∈ [(5, ([] : List Byte)), (8, [1, 2, 3])],
      (silent3 p.1).vresult = .ok ∧
      Answers (silent3 p.1).storage
        ((silent3 p.1).regionBase + BitVec.ofNat 32 (5 + (silent3 p.1).argOffset.toNat)) p.2 ∧
      (silent3 p.1).storage.get ((silent3 p.1).regionBase +
        BitVec.ofNat 32 (5 + (silent3 p.1).argOffset.toNat) + BitVec.ofNat 32 p.2.length).toNat = none ∧
      p.2.length < (silent3 p.1).argSize.toNat ∧
      (silent3 p.1).argOffset.toNat + (silent3 p.1).argSize.toNat + 9 ≤ (silent3 p.1).hdrLen.toNat ∧
      Accepts (silent3 p.1) 0x2000 p.2.length := by
  intro p hp
  refine ⟨?_, answers_of_get ?_, ?_, ?_, ?_, ?_⟩ <;> try unfold Accepts
  all_goals (revert p; decide)

theorem test_scalars_stuck :
    stuckReading 0x1005 (exec .readScalarB (silent3 5)) = true ∧
    stuckReading 0x1005 (exec .readScalarH (silent3 5)) = true ∧
    stuckReading 0x1008 (exec .readScalarW (silent3 8)) = true ∧
    stuckReading 0x1008 (exec .readField (silent3 8)) = true := by decide

/-- The field commands reach a state: finished, stuck and refused (for
FieldReadsStayInsideTheFieldData). -/
theorem witness_FieldReadsStayInsideTheFieldData :
    Reaches (exec .readField (field3 0 4 0x2000)) (reached (exec .readField (field3 0 4 0x2000))) ∧
    Reaches (exec .readScalarW (silent3 8)) (reached (exec .readScalarW (silent3 8))) ∧
    Reaches (exec .readField (shared3 13 0x0FFF)) (reached (exec .readField (shared3 13 0x0FFF))) :=
  ⟨reaches_of_hasState (by decide +kernel), reaches_of_hasState (by decide +kernel),
    reaches_of_hasState (by decide +kernel)⟩

/-- VALIDATE reaches a state when it finishes and when it is stuck. -/
theorem witness_ValidateReadsStayInsideTheRegion :
    Reaches (exec .validate before3) (reached (exec .validate before3)) ∧
    Reaches (exec .validate (ready 0x1000 13 (e3.take 7)))
      (reached (exec .validate (ready 0x1000 13 (e3.take 7)))) :=
  ⟨reaches_of_hasState (by decide +kernel), reaches_of_hasState (by decide +kernel)⟩

/-- Every access of E3's validated state is admitted; and the two ways to be stuck. -/
theorem witness_CommandsFinishWhereAccessesAreAdmitted :
    AccessesAdmitted (field3 0 4 0x2000) ∧
    exec .validate before3 = .next (reached (exec .validate before3)) ∧
    exec .readField (field3 0 4 0x2000) = .next (reached (exec .readField (field3 0 4 0x2000))) ∧
    (∃ f, exec (Command.toInstr .readScalarB) (silent3 5) = .fault f) ∧
    (∃ f, exec (Command.toInstr .readField) narrow3 = .fault f) := by
  refine ⟨⟨fun k hk _ => ?_, fun k hk => ?_, accepts3 0x2000 4⟩,
    next_of_isNext (by decide +kernel), next_of_isNext (by decide +kernel), ⟨_, rfl⟩, ⟨_, rfl⟩⟩
  · revert k; decide
  · revert k; decide

/-- A narrow read at the first offset, a misaligned write at the last, and a wide read. -/
theorem witness_NarrowOrMisalignedAccessAnswersSlverr :
    ∀ a ∈ [({ addr := 0x00, width := 16, op := .read } : Access), { addr := 0x3F, width := 32, op := .write 7 },
        { addr := 0x3C, width := 64, op := .read }],
      ({ State.reset with pending := [.access a] } : State).pending = .access a :: [] ∧
      (a.addr - State.reset.platform.regBase).toNat < 0x40 ∧
      (a.width ≠ 32 ∨ (a.addr - State.reset.platform.regBase).toNat % 4 ≠ 0) := by decide

theorem test_narrow_and_misaligned :
    (reached (step { State.reset with
      pending := [.access { addr := 0x00, width := 16, op := .read }] })).busFault = true ∧
    (reached (step { State.reset with
      pending := [.access { addr := 0x11, width := 32, op := .write 7 }] })).regionBase = 0 := by decide

/-- A consistent state that is not the reset state: E3 validated, a byte written, one access recorded of
each kind, and VALIDATE the host's next command. -/
def busy3 : State :=
  { valid3 with
    dest := [(0x2000, 1)]
    history := [.destWrite 0x2000 1, .storageRead 0x1005 1, .regWrite 0x30 0x2000, .regRead 0x04 0x09]
    pending := [.access { addr := 0x00, width := 32, op := .write 0x00000004 }] }

theorem witness_StepKeepsConsistency : Consistent busy3 ∧ step busy3 = .next (reached (step busy3)) := by
  refine ⟨⟨by decide, by decide, ⟨by decide, by decide, by decide⟩, fun e he => ?_⟩, next_of_isNext (by decide +kernel)⟩
  simp only [busy3, List.mem_cons, List.not_mem_nil, or_false] at he
  rcases he with rfl | rfl | rfl | rfl
  · show busy3.destAdmits 0x2000 = true
    decide
  · show busy3.storage.get 0x1005 = some 1
    decide
  · trivial
  · trivial

theorem witness_ResetIsConsistent : Memory.wf (storageAt 0xFFFFFFFC e3) := by decide

theorem witness_HardwareResetStep :
    ({ valid3 with pending := [.reset] } : State).pending = .reset :: [] := by decide

/-- V-FLD-01's copy, reset before its first access (0), after a read (1), between bytes (2), and after
its last access (8). -/
theorem witness_ResetDuringReadFieldKeepsWrittenBytes :
    (∀ k ∈ [0, 1, 2, 8], ({ field3 0 4 0x2000 with pending := [.resetDuring 0x00000005 k] } : State).pending =
      .resetDuring 0x00000005 k :: []) ∧
    valid3.vresult = .ok ∧ [1, 2, 3, (4 : Byte)].length = (field3 0 4 0x2000).argSize.toNat ∧
    (field3 0 4 0x2000).argOffset.toNat + (field3 0 4 0x2000).argSize.toNat + 9 ≤
      (field3 0 4 0x2000).hdrLen.toNat ∧
    Answers valid3.storage (valid3.regionBase + BitVec.ofNat 32 (5 + 0)) [1, 2, 3, 4] ∧
    Accepts (field3 0 4 0x2000) 0x2000 4 :=
  ⟨by decide, by decide, by decide, by decide, answers_of_get (by decide), accepts3 0x2000 4⟩

/-- An access to a register, one outside the window, and no event. -/
theorem witness_StepRunsTheDecodedInstruction :
    decodeAccess State.reset.platform.regBase { addr := 0x34, width := 32, op := .read } = .instr .rdRdata ∧
    decodeAccess State.reset.platform.regBase { addr := 0x40, width := 32, op := .read } = .notSelected ∧
    busy3.pending = .access { addr := 0x00, width := 32, op := .write 0x00000004 } :: [] ∧
    State.reset.pending = [] := by decide

theorem witness_FetchWordRunsItsInstruction :
    decodeTableWord 8 0x00 = some .rdCmd ∧ decodeTableWord 8 0x3C = some .slverr3cR ∧
    decodeTableWord 8 (0x40 + 0x10 + 256 * 0x1000) = some (.wrRegionBase 0x1000) := by decide

/-- A step that finishes, one that is stuck, and one that is refused (for StorageIsConstant). -/
theorem witness_StorageIsConstant :
    Reaches (step busy3) (reached (step busy3)) ∧
    Reaches (exec (.wrCmd 0x00000006) (silent3 5)) (reached (exec (.wrCmd 0x00000006) (silent3 5))) ∧
    Reaches (exec (.wrCmd 0x00000005) (shared3 13 0x0FFF))
      (reached (exec (.wrCmd 0x00000005) (shared3 13 0x0FFF))) :=
  ⟨reaches_of_hasState (by decide +kernel), reaches_of_hasState (by decide +kernel),
    reaches_of_hasState (by decide +kernel)⟩

/-- A step after a bus fault, and an instruction that raises one. -/
theorem witness_BusFaultIsSticky :
    step { busy3 with busFault := true } = .next (reached (step { busy3 with busFault := true })) ∧
    exec (.slverr38W 1) valid3 = .next (reached (exec (.slverr38W 1) valid3)) ∧
    (reached (exec (.slverr38W 1) valid3)).busFault ≠ valid3.busFault :=
  ⟨next_of_isNext (by decide +kernel), next_of_isNext (by decide +kernel), by decide⟩

theorem witness_OnlyValidateChangesTheView :
    Reaches (exec (.wrCmd 0x00000005) (field3 0 4 0x2000))
      (reached (exec (.wrCmd 0x00000005) (field3 0 4 0x2000))) ∧
    Instr.wrCmd 0x00000005 ≠ .validate ∧
    ∀ w, Instr.wrCmd 0x00000005 = .wrCmd w → decodeCommand w ≠ .validate := by
  refine ⟨reaches_of_hasState (by decide +kernel), by decide, fun w h => ?_⟩
  cases h
  decide

theorem witness_OnlyThreeCommandsChangeCrcState :
    Reaches (exec .crcReset valid3) (reached (exec .crcReset valid3)) ∧
    (reached (exec .crcReset valid3)).crcState ≠ valid3.crcState := ⟨reaches_of_hasState (by decide +kernel), by decide⟩

/-- Each of the five registers changes in some run. -/
theorem witness_OnlyHostWritesChangeRegionAndArguments :
    Reaches (exec (.wrRegionBase 1) valid3) (reached (exec (.wrRegionBase 1) valid3)) ∧
    (reached (exec (.wrRegionBase 1) valid3)).regionBase ≠ valid3.regionBase ∧
    (reached (exec (.wrRegionSize 1) valid3)).regionSize ≠ valid3.regionSize ∧
    (reached (exec (.wrArgOffset 1) valid3)).argOffset ≠ valid3.argOffset ∧
    (reached (exec (.wrArgSize 1) valid3)).argSize ≠ valid3.argSize ∧
    (reached (exec (.wrArgDest 1) valid3)).argDest ≠ valid3.argDest :=
  ⟨reaches_of_hasState (by decide +kernel), by decide, by decide, by decide, by decide, by decide⟩

theorem witness_OnlyCommandsChangeCerrAndRdata :
    Reaches (exec (.wrCmd 0x00000006) valid3) (reached (exec (.wrCmd 0x00000006) valid3)) ∧
    (reached (exec (.wrCmd 0x00000006) valid3)).rdata ≠ valid3.rdata ∧
    (reached (exec (.wrCmd 0x00000000) valid3)).cerr ≠ valid3.cerr := ⟨reaches_of_hasState (by decide +kernel), by decide,
    by decide⟩

theorem witness_DestinationChangesOnlyByRecordedWrites :
    Reaches (exec .readField (field3 0 4 0x2000)) (reached (exec .readField (field3 0 4 0x2000))) ∧
    Event.destWrite 0x2003 4 ∈ (reached (exec .readField (field3 0 4 0x2000))).history :=
  ⟨reaches_of_hasState (by decide +kernel), by decide⟩

/-- A state in which the host's next event is a CMD write cut off after `k` accesses. -/
def cutting (s : State) (w : Word) (k : Nat) : State := { s with pending := [.resetDuring w k] }

/-- A reset during each command, before its first access and later: VALIDATE in each of its passes and
stuck, the CRC commands, an illegal word, the field commands, finished and stuck; and one refused. -/
theorem witness_ResetDuringAnyCommandAbortsIt :
    (∀ k ∈ [0, 3, 9, 16, 18, 19],
      step (cutting before3 0x00000004 k) = .next (reached (step (cutting before3 0x00000004 k)))) ∧
    (∀ k ∈ [0, 9],
      step (cutting (ready 0x1000 13 (e3.take 7)) 0x00000004 k) =
        .next (reached (step (cutting (ready 0x1000 13 (e3.take 7)) 0x00000004 k)))) ∧
    (∀ n ∈ [0, 1, 0x3102, 3, 4, 5, 6, 0x10006, 0x20006],
      step (cutting (field3 0 4 0x2000) (BitVec.ofNat 32 n) 1) =
        .next (reached (step (cutting (field3 0 4 0x2000) (BitVec.ofNat 32 n) 1)))) ∧
    step (cutting (silent3 8) 0x00000005 9) = .next (reached (step (cutting (silent3 8) 0x00000005 9))) ∧
    (cutting (silent3 8) 0x00000005 9).platform.shared = false ∧
    (∃ q, step (cutting (shared3 13 0x0FFF) 0x00000005 8) = .refused q) ∧
    isNext (step (cutting (shared3 13 0x0FFF) 0x00000005 2)) = true := by
  refine ⟨fun k hk => next_of_isNext ?_, fun k hk => next_of_isNext ?_, fun n hn => next_of_isNext ?_,
    next_of_isNext (by decide +kernel), by decide, ⟨_, rfl⟩, by decide +kernel⟩
  · revert k; decide +kernel
  · revert k; decide +kernel
  · revert n; decide +kernel

/-- R241: a VALIDATE cut off in its CRC pass leaves CRC_STATE and VRESULT at their reset values. -/
theorem test_reset_during_validate :
    (reached (step (cutting { before3 with crcState := 1 } 0x00000004 9))).crcState = 0xFFFFFFFF ∧
    (reached (step (cutting before3 0x00000004 18))).vresult = .none ∧
    (reached (step (cutting (silent3 8) 0x00000005 9))).dest = [(0x2000, 1), (0x2001, 2), (0x2002, 3)] := by
  decide +kernel

end Sys2Proof.Tests
end

section
/-! SUPPORT. The proofs of the statements about the state (10_state.md): STATUS, and which instructions
change which part of the state.  The idea of most of them is `exec_issues_of_changed`: what the register
port leaves alone can only be changed by the command that an instruction issues, so a fact about the
commands settles a fact about all instructions. -/

namespace Sys2Proof.Machine
open Sys2Proof

/-! ### STATUS (R25, R26) -/

theorem State.statusWord_vresult (s : State) : s.statusWord.extractLsb' 0 3 = s.vresult.code := by
  rw [State.statusWord, BitVec.extractLsb'_append_eq_right]

theorem State.statusWord_valid (s : State) : s.statusWord.getLsbD 3 = s.valid := by
  rw [State.statusWord, BitVec.getLsbD_append, BitVec.getLsbD_append]
  simp

theorem State.statusWord_cerr (s : State) : s.statusWord.extractLsb' 4 3 = s.cerr.code := by
  rw [State.statusWord, BitVec.extractLsb'_append_eq_of_le (by decide),
    BitVec.extractLsb'_append_eq_of_le (by decide), BitVec.extractLsb'_append_eq_right]

theorem State.statusWord_reserved (s : State) : s.statusWord.extractLsb' 7 25 = 0#25 := by
  rw [State.statusWord, BitVec.extractLsb'_append_eq_of_le (by decide),
    BitVec.extractLsb'_append_eq_of_le (by decide), BitVec.extractLsb'_append_eq_left]

/-- The code 1 is OK's alone (R25). -/
theorem VResult.code_eq_one_iff (v : VResult) : v.code = 1#3 ↔ v = .ok := by
  cases v <;> decide

/-- Settles O35: the four fields of STATUS, where VALID is bit 3. -/
theorem statusLayout : Obligations.StatusLayout := by
  intro s
  refine ⟨?_, ?_, ?_, s.statusWord_reserved⟩
  · rw [s.statusWord_vresult]; cases s.vresult <;> rfl
  · rw [s.statusWord_valid, s.statusWord_vresult, State.valid_iff, VResult.code_eq_one_iff]
  · rw [s.statusWord_cerr]; cases s.cerr <;> rfl

/-! ### What VALIDATE leaves alone (R140) -/

/-- A VALIDATE that finishes leaves CERR at NONE, whatever its verdict (R150). -/
theorem execValidate_cerr {s t : State} (h : execValidate s = .next t) : t.cerr = .none := by
  rcases execValidate_next h with ⟨-, rfl⟩ | ⟨_, -, -, -, -, rfl⟩ |
    ⟨_, _, _, -, -, -, -, -, -, -, -, rfl⟩ <;> rfl

/-- Settles O19, from the frame of VALIDATE. -/
theorem validateFrame : Obligations.ValidateFrame := by
  intro s t h
  obtain ⟨hf, hdest, hrdata⟩ := execValidate_frame (.inl h)
  exact ⟨execValidate_cerr h, hrdata, hf.argOffset, hf.argSize, hf.argDest, hf.regionBase,
    hf.regionSize, hf.storage, hdest, hf.platform, hf.busFault, hf.pending, hf.freeCount⟩

/-! ### Instructions that issue a command -/

/-- The instruction issues the command: it is the command's row, or a CMD write of its word (R195). -/
def Issues (i : Instr) (c : Command) : Prop := i = c.toInstr ∨ ∃ w, i = .wrCmd w ∧ decodeCommand w = c

/-- The register port leaves the observation `f` of the state alone: recording a CMD write, answering a
read, writing another register and SLVERR do not change it. -/
structure PortKeeps {α : Type} (f : State → α) : Prop where
  log : ∀ s e, f (s.log e) = f s
  answered : ∀ s off v, f (s.answered off v) = f s
  written : ∀ s v r off, f ((s.writeReg v r).accepted off v) = f s
  readErrored : ∀ s off v, f (s.readErrored off v) = f s
  writeErrored : ∀ s off v, f (s.writeErrored off v) = f s

/-- What the port leaves alone, an instruction changes only by the command it issues. -/
theorem exec_issues_of_changed {α : Type} {f : State → α} (hf : PortKeeps f) {i : Instr} {s t : State}
    (h : Reaches (exec i s) t) (hne : f t ≠ f s) :
    ∃ c u, Issues i c ∧ f u = f s ∧ Reaches (execCommand c u) t := by
  revert hne
  refine exec_reaches (P := fun t => f t ≠ f s → _) h ?command ?cmdWrite ?read ?write ?readError
    ?writeError
  case command => exact fun c hi hc _ => ⟨c, s, .inl hi, rfl, hc⟩
  case cmdWrite => exact fun w hi hc _ => ⟨_, _, .inr ⟨w, hi, rfl⟩, hf.log _ _, hc⟩
  case read => exact fun _ _ _ hne => absurd (hf.answered _ _ _) hne
  case write => exact fun _ _ _ hne => absurd (hf.written _ _ _ _) hne
  case readError => exact fun _ _ _ hne => absurd (hf.readErrored _ _ _) hne
  case writeError => exact fun _ _ _ hne => absurd (hf.writeErrored _ _ _) hne

/-! ### Storage, platform and queue (R40, R9) -/

/-- The parts of the state that stand for the outside world: no instruction changes them. -/
def State.outside (s : State) : Memory × Platform × List HostEvent := (s.storage, s.platform, s.pending)

theorem State.outside_eq_iff (s t : State) : t.outside = s.outside ↔
    t.storage = s.storage ∧ t.platform = s.platform ∧ t.pending = s.pending := by
  simp [State.outside]

theorem portKeeps_outside : PortKeeps State.outside := by
  constructor <;> simp [State.outside]

/-- No instruction changes the storage, the platform's parameters or the host's queue. -/
theorem exec_outside {i : Instr} {s t : State} (h : Reaches (exec i s) t) : t.outside = s.outside := by
  by_contra hne
  obtain ⟨c, u, -, hu, hc⟩ := exec_issues_of_changed portKeeps_outside h hne
  have hf := execCommand_frame hc
  exact hne (((State.outside_eq_iff u t).2 ⟨hf.storage, hf.platform, hf.pending⟩).trans hu)

/-- No step changes the storage or the platform's parameters (R40, R9). -/
theorem step_storage_platform {s t : State} (h : Reaches (step s) t) :
    t.storage = s.storage ∧ t.platform = s.platform := by
  refine step_reaches (P := fun t => t.storage = s.storage ∧ t.platform = s.platform) h ?idle ?access
    ?reset ?resetDuring
  case idle => exact fun _ => ⟨rfl, rfl⟩
  case access =>
    refine fun a rest _ ha => serveAccess_reaches
      (P := fun t => t.storage = s.storage ∧ t.platform = s.platform) ha ⟨rfl, rfl⟩ (fun i hi => ?_)
      (fun _ _ => ⟨rfl, rfl⟩) (fun _ _ => ⟨rfl, rfl⟩)
    obtain ⟨hs, hp, -⟩ := (State.outside_eq_iff _ _).1 (exec_outside hi)
    exact ⟨hs, hp⟩
  case reset => exact fun _ _ => ⟨rfl, rfl⟩
  case resetDuring =>
    rintro w k rest u _ hu (rfl | rfl)
    · exact ⟨(execCommand_frame hu).storage, (execCommand_frame hu).platform⟩
    · exact ⟨rfl, rfl⟩

/-- Settles O50, event by event; an instruction's part is `exec_outside`. -/
theorem storageIsConstant : Obligations.StorageIsConstant :=
  ⟨fun _ _ h => step_storage_platform h,
    fun _ _ _ h => ((State.outside_eq_iff _ _).1 (exec_outside h)).2.2⟩

/-! ### `busFault` (R42, R192) -/

/-- An instruction leaves `busFault` as it is, or it is an access to a reserved offset and sets it. -/
theorem exec_busFault {i : Instr} {s t : State} (h : Reaches (exec i s) t) :
    t.busFault = s.busFault ∨ (t.busFault = true ∧
      (i = .slverr38R ∨ i = .slverr3cR ∨ ∃ v, i = .slverr38W v ∨ i = .slverr3cW v)) := by
  refine exec_reaches (P := fun t => t.busFault = s.busFault ∨ (t.busFault = true ∧ _)) h ?command
    ?cmdWrite ?read ?write ?readError ?writeError
  case command => exact fun _ _ hc => .inl (execCommand_frame hc).busFault
  case cmdWrite => exact fun _ _ hc => .inl (execCommand_frame hc).busFault
  case read => exact fun _ _ _ => .inl rfl
  case write => exact fun r v _ => .inl (s.writeReg_busFault v r)
  case readError => exact fun _ _ hi => .inr ⟨rfl, hi.imp_right .inl⟩
  case writeError => exact fun _ v hi => .inr ⟨rfl, .inr (.inr ⟨v, hi⟩)⟩

/-- No step clears `busFault`, whatever its outcome (R42). -/
theorem step_busFault {s t : State} (h : Reaches (step s) t) (hs : s.busFault = true) :
    t.busFault = true := by
  refine step_reaches (P := fun t => t.busFault = true) h ?idle ?access ?reset ?resetDuring
  case idle => exact fun _ => hs
  case access =>
    refine fun a rest _ ha => serveAccess_reaches (P := fun t => t.busFault = true) ha hs
      (fun i hi => ?_) (fun _ _ => rfl) (fun _ _ => rfl)
    rcases exec_busFault hi with he | ⟨ht, -⟩
    · exact he.trans hs
    · exact ht
  case reset => exact fun _ _ => hs
  case resetDuring =>
    rintro w k rest u _ hu (rfl | rfl)
    · exact (execCommand_frame hu).busFault.trans hs
    · exact hs

/-- Settles O51, from what an instruction and a step do to `busFault`. -/
theorem busFaultIsSticky : Obligations.BusFaultIsSticky :=
  ⟨fun _ _ h hs => step_busFault (.inl h) hs,
    fun _ _ _ h hne => ((exec_busFault (.inl h)).resolve_left hne).2⟩

/-! ### VRESULT and the latched registers (R25, R44, R45) -/

/-- VRESULT and the registers VALIDATE latches. -/
def State.view (s : State) : VResult × HdrId × Half × Word × Word :=
  (s.vresult, s.hdrId, s.hdrLen, s.expected, s.computed)

theorem State.view_eq_iff (s t : State) : t.view = s.view ↔ t.vresult = s.vresult ∧ t.hdrId = s.hdrId ∧
    t.hdrLen = s.hdrLen ∧ t.expected = s.expected ∧ t.computed = s.computed := by
  simp [State.view]

theorem portKeeps_view : PortKeeps State.view := by
  constructor <;> simp [State.view]

/-- READ_SCALAR changes neither CRC_STATE nor the view. -/
theorem readScalar_crcState_view {n : Nat} {s t : State} (h : Reaches (readScalar n s) t) :
    t.crcState = s.crcState ∧ t.view = s.view := by
  obtain ⟨-, -, hcrc, hview⟩ := readScalar_frame h
  exact ⟨hcrc, (State.view_eq_iff s t).2 hview⟩

/-- Of the commands only VALIDATE changes the view. -/
theorem execCommand_view {c : Command} {s t : State} (h : Reaches (execCommand c s) t)
    (hne : t.view ≠ s.view) : c = .validate := by
  cases c with
  | validate => rfl
  | crcReset | crcUpdate | crcFinalize | illegal =>
    exact absurd (congrArg State.view ((reaches_finish _ _ t).1 h)) hne
  | readField =>
    obtain ⟨-, -, -, hview⟩ := execReadField_frame h
    exact absurd ((State.view_eq_iff s t).2 hview) hne
  | readScalarB => exact absurd (readScalar_crcState_view (n := 1) h).2 hne
  | readScalarH => exact absurd (readScalar_crcState_view (n := 2) h).2 hne
  | readScalarW => exact absurd (readScalar_crcState_view (n := 4) h).2 hne

/-- Settles O52: the view is changed only by a command issued, and of the commands by VALIDATE. -/
theorem onlyValidateChangesTheView : Obligations.OnlyValidateChangesTheView := by
  intro i s t h hi hw
  rw [← State.view_eq_iff]
  by_contra hne
  obtain ⟨c, u, hc, hu, hr⟩ := exec_issues_of_changed portKeeps_view h hne
  obtain rfl := execCommand_view hr (hu ▸ hne)
  rcases hc with hc | ⟨w, hc, hd⟩
  · exact hi hc
  · exact hw w hc hd

/-! ### CRC_STATE (R28) -/

theorem portKeeps_crcState : PortKeeps State.crcState := by constructor <;> simp

/-- Of the commands only CRC_RESET, CRC_UPDATE and VALIDATE change CRC_STATE (R28). -/
theorem execCommand_crcState {c : Command} {s t : State} (h : Reaches (execCommand c s) t)
    (hne : t.crcState ≠ s.crcState) : c = .crcReset ∨ (∃ b, c = .crcUpdate b) ∨ c = .validate := by
  cases c with
  | crcReset => exact .inl rfl
  | crcUpdate b => exact .inr (.inl ⟨b, rfl⟩)
  | validate => exact .inr (.inr rfl)
  | crcFinalize | illegal => exact absurd (congrArg State.crcState ((reaches_finish _ _ t).1 h)) hne
  | readField =>
    obtain ⟨-, -, hcrc, -⟩ := execReadField_frame h
    exact absurd hcrc hne
  | readScalarB => exact absurd (readScalar_crcState_view (n := 1) h).1 hne
  | readScalarH => exact absurd (readScalar_crcState_view (n := 2) h).1 hne
  | readScalarW => exact absurd (readScalar_crcState_view (n := 4) h).1 hne

/-- Settles O53: CRC_STATE is changed only by a command issued, and of the commands by those three. -/
theorem onlyThreeCommandsChangeCrcState : Obligations.OnlyThreeCommandsChangeCrcState := by
  intro i s t h hne
  obtain ⟨c, u, hc, hu, hr⟩ := exec_issues_of_changed portKeeps_crcState h hne
  exact ⟨c, execCommand_crcState hr (hu ▸ hne), hc⟩

/-! ### The region and argument registers (R30, R31, R36 to R38) -/

theorem State.writeReg_regionBase {s : State} {v : Word} {r : Reg}
    (h : (s.writeReg v r).regionBase ≠ s.regionBase) : r = .regionBase := by
  cases r with
  | regionBase => rfl
  | _ => exact absurd rfl h

theorem State.writeReg_regionSize {s : State} {v : Word} {r : Reg}
    (h : (s.writeReg v r).regionSize ≠ s.regionSize) : r = .regionSize := by
  cases r with
  | regionSize => rfl
  | _ => exact absurd rfl h

theorem State.writeReg_argOffset {s : State} {v : Word} {r : Reg}
    (h : (s.writeReg v r).argOffset ≠ s.argOffset) : r = .argOffset := by
  cases r with
  | argOffset => rfl
  | _ => exact absurd rfl h

theorem State.writeReg_argSize {s : State} {v : Word} {r : Reg}
    (h : (s.writeReg v r).argSize ≠ s.argSize) : r = .argSize := by
  cases r with
  | argSize => rfl
  | _ => exact absurd rfl h

theorem State.writeReg_argDest {s : State} {v : Word} {r : Reg}
    (h : (s.writeReg v r).argDest ≠ s.argDest) : r = .argDest := by
  cases r with
  | argDest => rfl
  | _ => exact absurd rfl h

/-- The region and argument registers are the same. -/
def SameRegionArgs (s t : State) : Prop :=
  t.regionBase = s.regionBase ∧ t.regionSize = s.regionSize ∧ t.argOffset = s.argOffset ∧
    t.argSize = s.argSize ∧ t.argDest = s.argDest

theorem CommandFrame.sameRegionArgs {s t : State} (h : CommandFrame s t) : SameRegionArgs s t :=
  ⟨h.regionBase, h.regionSize, h.argOffset, h.argSize, h.argDest⟩

/-- An instruction leaves the region and argument registers as a register write leaves them, or as they
were. -/
theorem exec_regionArgs {i : Instr} {s t : State} (h : Reaches (exec i s) t) :
    (∃ r v, i = Reg.wrInstr v r ∧ t = (s.writeReg v r).accepted r.offset v) ∨
      SameRegionArgs s t := by
  refine exec_reaches (P := fun t => (∃ r v, i = Reg.wrInstr v r ∧
    t = (s.writeReg v r).accepted r.offset v) ∨ SameRegionArgs s t) h ?command ?cmdWrite ?read ?write
    ?readError ?writeError
  case command => exact fun _ _ hc => .inr (execCommand_frame hc).sameRegionArgs
  case cmdWrite => exact fun _ _ hc => .inr (execCommand_frame hc).sameRegionArgs
  case read => exact fun _ _ _ => .inr ⟨rfl, rfl, rfl, rfl, rfl⟩
  case write => exact fun r v hi => .inl ⟨r, v, hi, rfl⟩
  case readError => exact fun _ _ _ => .inr ⟨rfl, rfl, rfl, rfl, rfl⟩
  case writeError => exact fun _ _ _ => .inr ⟨rfl, rfl, rfl, rfl, rfl⟩

/-- Settles O54: a register write changes only its own register, and nothing else changes any. -/
theorem onlyHostWritesChangeRegionAndArguments :
    Obligations.OnlyHostWritesChangeRegionAndArguments := by
  intro i s t h
  rcases exec_regionArgs h with ⟨r, v, rfl, rfl⟩ | ⟨hb, hz, ho, hn, hd⟩
  · exact ⟨fun hne => ⟨v, congrArg (Reg.wrInstr v) (State.writeReg_regionBase hne)⟩,
      fun hne => ⟨v, congrArg (Reg.wrInstr v) (State.writeReg_regionSize hne)⟩,
      fun hne => ⟨v, congrArg (Reg.wrInstr v) (State.writeReg_argOffset hne)⟩,
      fun hne => ⟨v, congrArg (Reg.wrInstr v) (State.writeReg_argSize hne)⟩,
      fun hne => ⟨v, congrArg (Reg.wrInstr v) (State.writeReg_argDest hne)⟩⟩
  · exact ⟨absurd hb, absurd hz, absurd ho, absurd hn, absurd hd⟩

/-! ### CERR and RDATA (R27, R39) -/

theorem portKeeps_cerr : PortKeeps State.cerr := by constructor <;> simp

theorem portKeeps_rdata : PortKeeps State.rdata := by constructor <;> simp

/-- READ_SCALAR changes RDATA only where it ends without error (R173). -/
theorem readScalar_cerr_of_rdata {n : Nat} {s t : State} (h : Reaches (readScalar n s) t)
    (hne : t.rdata ≠ s.rdata) : t.cerr = .none := by
  have hr := readScalar_run n s
  generalize readScalar n s = r at hr h
  cases hr with
  | notValidated | outOfBounds => exact absurd (congrArg State.rdata ((reaches_finish _ _ t).1 h)) hne
  | stuck => exact absurd (congrArg State.rdata ((reaches_fault _ t).1 h)) hne
  | value => exact congrArg State.cerr ((reaches_finish _ _ t).1 h)

/-- Of the commands only CRC_FINALIZE and the READ_SCALARs change RDATA, and not where they end in an
error (R39). -/
theorem execCommand_rdata {c : Command} {s t : State} (h : Reaches (execCommand c s) t)
    (hne : t.rdata ≠ s.rdata) : t.cerr = .none ∧
      (c = .crcFinalize ∨ c = .readScalarB ∨ c = .readScalarH ∨ c = .readScalarW) := by
  cases c with
  | crcFinalize => exact ⟨congrArg State.cerr ((reaches_finish _ _ t).1 h), .inl rfl⟩
  | readScalarB => exact ⟨readScalar_cerr_of_rdata (n := 1) h hne, .inr (.inl rfl)⟩
  | readScalarH => exact ⟨readScalar_cerr_of_rdata (n := 2) h hne, .inr (.inr (.inl rfl))⟩
  | readScalarW => exact ⟨readScalar_cerr_of_rdata (n := 4) h hne, .inr (.inr (.inr rfl))⟩
  | crcReset | crcUpdate | illegal => exact absurd (congrArg State.rdata ((reaches_finish _ _ t).1 h)) hne
  | validate => exact absurd (execValidate_frame h).2.2 hne
  | readField => exact absurd (execReadField_frame h).2.1 hne

/-- Settles O55: both registers are changed only by a command issued. -/
theorem onlyCommandsChangeCerrAndRdata : Obligations.OnlyCommandsChangeCerrAndRdata := by
  intro i s t h
  refine ⟨fun hne => ?_, fun hne => ?_⟩
  · obtain ⟨c, -, hc, -⟩ := exec_issues_of_changed portKeeps_cerr h hne
    exact hc.imp (fun hi => ⟨c, hi⟩) (fun ⟨w, hi, _⟩ => ⟨w, hi⟩)
  · obtain ⟨c, u, hc, hu, hr⟩ := exec_issues_of_changed portKeeps_rdata h hne
    obtain ⟨he, hk⟩ := execCommand_rdata hr (hu ▸ hne)
    exact ⟨he, c, hk, hc⟩

/-! ### The destination (R41, R42, R62) -/

/-- From `s` to `t` the history has grown, the destination has changed by the destination writes added
alone, and there is one only if `W` holds. -/
def DestFollowsHistory (W : Prop) (s t : State) : Prop :=
  ∃ es : List Event, t.history = es ++ s.history ∧ t.dest = replayWrites es.reverse s.dest ∧
    ((∃ a b, Event.destWrite a b ∈ es) → W)

/-- Recording one event that is no destination write. -/
theorem destFollowsHistory_record {W : Prop} {s t : State} {e : Event} (he : isDestWrite e = false)
    (hh : t.history = e :: s.history) (hd : t.dest = s.dest) : DestFollowsHistory W s t := by
  cases e with
  | destWrite a b => cases he
  | storageRead | regRead | regWrite => exact ⟨[_], hh, hd, by simp⟩

/-- A command's accesses after its CMD write: the write's record is older and no destination write. -/
theorem DestFollowsHistory.afterRegWrite {W : Prop} {s t : State} {off : Nat} {v : Word}
    (h : DestFollowsHistory W (s.log (.regWrite off v)) t) : DestFollowsHistory W s t := by
  obtain ⟨es, hh, hd, hw⟩ := h
  refine ⟨es ++ [.regWrite off v], by simp [hh], ?_, fun ⟨a, b, he⟩ => hw ⟨a, b, by simpa using he⟩⟩
  rw [List.reverse_append]
  exact hd

theorem execCommand_destFollowsHistory {c : Command} {s t : State} (h : Reaches (execCommand c s) t) :
    DestFollowsHistory (c = .readField) s t := by
  obtain ⟨es, hh, hd, -, hw⟩ := execCommand_history h
  exact ⟨es, hh, hd, hw⟩

theorem DestFollowsHistory.imp {V W : Prop} {s t : State} (h : DestFollowsHistory V s t) (f : V → W) :
    DestFollowsHistory W s t := by
  obtain ⟨es, hh, hd, hw⟩ := h
  exact ⟨es, hh, hd, fun he => f (hw he)⟩

/-- Settles O56, by the kind of instruction; a command's part is `execCommand_history`. -/
theorem destinationChangesOnlyByRecordedWrites :
    Obligations.DestinationChangesOnlyByRecordedWrites := by
  intro i s t h
  refine exec_reaches (P := DestFollowsHistory _ s) h ?command ?cmdWrite ?read ?write ?readError
    ?writeError
  case command =>
    exact fun c hi hc =>
      (execCommand_destFollowsHistory hc).imp fun e => .inl (hi.trans (congrArg _ e))
  case cmdWrite =>
    exact fun w hi hc =>
      ((execCommand_destFollowsHistory hc).afterRegWrite).imp fun e => .inr ⟨w, hi, e⟩
  case read => exact fun _ _ _ => destFollowsHistory_record rfl rfl rfl
  case write =>
    exact fun r v _ => destFollowsHistory_record rfl (congrArg _ (s.writeReg_history v r))
      (s.writeReg_dest v r)
  case readError => exact fun _ _ _ => destFollowsHistory_record rfl rfl rfl
  case writeError => exact fun _ _ _ => destFollowsHistory_record rfl rfl rfl

end Sys2Proof.Machine
end

section
/-! SUPPORT. The proofs of the statements about memory (20_memory.md): where a command that meets a silent
storage address or a refused destination address stops, and which storage addresses a command reads.  The
place where a command stops is unique, so each statement of the first kind picks its case out of
`ValidateRun`, `ScalarRun` or `FieldRun`; the reads are followed along the history by `AddedReads`. -/

namespace Sys2Proof.Machine
open Sys2Proof

/-! ### The first silent storage address -/

/-- The storage answers `bs` from `a` and is silent at the address after them (R13, R70). -/
structure SilentAfter (m : Memory) (a : Addr) (bs : List Byte) : Prop where
  answers : Answers m a bs
  silent : m.get (a + BitVec.ofNat 32 bs.length).toNat = none

/-- What is answered ends before the first silent address. -/
theorem SilentAfter.length_le {m : Memory} {a : Addr} {bs cs : List Byte} (h : SilentAfter m a bs)
    (hc : Answers m a cs) : cs.length ≤ bs.length := by
  by_contra hlt
  exact answers_not_silent hc (by omega) h.silent

/-- There is one first silent address, and one sequence of bytes before it. -/
theorem SilentAfter.unique {m : Memory} {a : Addr} {bs cs : List Byte} (h : SilentAfter m a bs)
    (hc : SilentAfter m a cs) : bs = cs :=
  answers_unique h.answers hc.answers
    (Nat.le_antisymm (hc.length_le h.answers) (h.length_le hc.answers))

/-- A read that stops in a second part stops at the first silent address of both parts together. -/
theorem SilentAfter.append {m : Memory} {a : Addr} {bs cs : List Byte} (hb : Answers m a bs)
    (hc : SilentAfter m (a + BitVec.ofNat 32 bs.length) cs) : SilentAfter m a (bs ++ cs) where
  answers := (answers_append m a bs cs).2 ⟨hb, hc.answers⟩
  silent := by rw [List.length_append, ← addr_add]; exact hc.silent

/-! ### The first refused destination address -/

/-- Accepted addresses end before one that does not accept a write, or where it would change the storage. -/
theorem accepts_le_of_blocked {s : State} {a : Addr} {n k : Nat} (h : Accepts s a n)
    (hk : s.destAdmits (a + BitVec.ofNat 32 k) = false ∨ s.hitsStorage (a + BitVec.ofNat 32 k) = true) :
    n ≤ k := by
  by_contra hlt
  obtain ⟨hd, hh⟩ := h k (by omega)
  simp [hd, hh] at hk

/-- Where the two spaces are one memory, a write to a listed storage address or into the region would
change the storage (R81, R255; log 8). -/
theorem State.hitsStorage_of_overlap {s : State} {a : Addr} (hs : s.platform.shared = true)
    (ha : s.storage.get a.toNat ≠ none ∨
      ∃ k, k < s.regionSize.toNat ∧ a = s.regionBase + BitVec.ofNat 32 k) : s.hitsStorage a = true := by
  rw [State.hitsStorage, hs, Bool.true_and, Bool.or_eq_true, decide_eq_true_eq]
  rcases ha with hm | ⟨k, hk, rfl⟩
  · exact .inl (Option.isSome_iff_ne_none.2 hm)
  · right
    rw [BitVec.add_comm, BitVec.add_sub_cancel, BitVec.toNat_ofNat]
    exact (Nat.mod_le _ _).trans_lt hk

/-! ### VALIDATE at a silent address (R70, R155) -/

/-- The header's length is in its bytes 3 and 4, wherever they are read from (R65, R144). -/
theorem headerLength_of_answers {m : Memory} {a : Addr} {h bs : List Byte} {h3 h4 : Byte}
    (hl : h.length = 5) (hh : Answers m a h) (hb : Answers m a bs) (e3 : bs[3]? = some h3)
    (e4 : bs[4]? = some h4) : headerLength h = h3.toNat + 256 * h4.toNat := by
  match h, hl with
  | [_, _, _, d, e], _ =>
    rw [headerLength_five, Option.some.inj ((hh 3 d rfl).symm.trans (hb 3 h3 e3)),
      Option.some.inj ((hh 4 e rfl).symm.trans (hb 4 h4 e4))]

/-- VALIDATE needs the storage address after the bytes `bs`: it lies in the header, or below a header
length that is not refused (R143 to R147). -/
def ValidateNeeds (s : State) (bs : List Byte) : Prop :=
  bs.length < 5 ∨ ∀ h : List Byte, h.length = 5 → Answers s.storage s.regionBase h →
    ¬ HeaderBad s h ∧ bs.length < headerLength h

theorem validateNeeds_of_bytes {s : State} {bs : List Byte} (ha : Answers s.storage s.regionBase bs)
    (h : bs.length < 5 ∨
      ∃ h3 h4 : Byte, bs[3]? = some h3 ∧ bs[4]? = some h4 ∧
        9 ≤ h3.toNat + 256 * h4.toNat ∧ h3.toNat + 256 * h4.toNat ≤ s.regionSize.toNat ∧
        bs.length < h3.toNat + 256 * h4.toNat) : ValidateNeeds s bs := by
  refine h.imp_right ?_
  rintro ⟨h3, h4, e3, e4, h9, hz, hlt⟩ h hl hh
  rw [HeaderBad, headerLength_of_answers hl hh ha e3 e4]
  omega

/-- The checksum stands right after the covered bytes (R147). -/
theorem checksumAddr_eq {s : State} {h bs : List Byte} (hl : bs.length = headerLength h - 4) :
    checksumAddr s h = s.regionBase + BitVec.ofNat 32 bs.length := by
  rw [hl]
  rfl

/-- VALIDATE stops at the first silent address of its sequence; within the header nothing is latched. -/
theorem execValidate_stuck {s : State} {bs : List Byte} (hs : 5 ≤ s.regionSize.toNat)
    (hb : SilentAfter s.storage s.regionBase bs) (hneed : ValidateNeeds s bs) :
    ∃ t, execValidate s = .fault (.storageStuck (s.regionBase + BitVec.ofNat 32 bs.length) t) ∧
      (bs.length < 5 → t = withEvents s.clearView (readEvents s.regionBase bs)) := by
  have past {h : List Byte} (hl : h.length = 5) (hh : Answers s.storage s.regionBase h) :
      ¬ bs.length < 5 ∧ ¬ HeaderBad s h ∧ bs.length < headerLength h := by
    have hle : ¬ bs.length < 5 := Nat.not_lt.2 (hl ▸ hb.length_le hh)
    exact ⟨hle, hneed.resolve_left hle h hl hh⟩
  have hr := execValidate_run s
  generalize execValidate s = r at hr ⊢
  cases hr with
  | smallRegion hz => omega
  | stuckInHeader cs _ _ ha hn =>
    obtain rfl := hb.unique ⟨ha, hn⟩
    exact ⟨_, rfl, fun _ => rfl⟩
  | badLength h _ hl hh hbad => exact absurd hbad (past hl hh).2.1
  | stuckInPass h cs _ hl hh _ _ hc hn =>
    obtain rfl := hb.unique ⟨hc, hn⟩
    exact ⟨_, rfl, fun hlt => absurd hlt (past hl hh).1⟩
  | stuckInChecksum h cs c _ hl hh _ hlen hc _ hd hn =>
    have hsum := checksumAddr_eq (s := s) hlen
    obtain rfl := hb.unique (SilentAfter.append hc ⟨hsum ▸ hd, hsum ▸ hn⟩)
    rw [hsum, addr_add, ← List.length_append]
    exact ⟨_, rfl, fun hlt => absurd hlt (past hl hh).1⟩
  | verdict h cs c _ hl hh _ hlen hc hk hd =>
    have hle := hb.length_le ((answers_append _ _ _ _).2 ⟨hc, checksumAddr_eq hlen ▸ hd⟩)
    obtain ⟨-, -, hlt⟩ := past hl hh
    rw [List.length_append] at hle
    omega

/-- A stuck VALIDATE has discarded the previous result and given no verdict (R142, R155). -/
theorem execValidate_fault {s : State} {f : Fault} (h : execValidate s = .fault f) :
    f.reached.vresult = .none ∧ f.reached.expected = 0 ∧ f.reached.computed = 0 ∧
      f.reached.cerr = s.cerr := by
  have hr := execValidate_run s
  rw [h] at hr
  generalize hf : (Host.Outcome.fault f : Result) = r at hr
  cases hr with
  | smallRegion | badLength | verdict => cases hf
  | stuckInHeader | stuckInPass | stuckInChecksum => cases hf; exact ⟨rfl, rfl, rfl, rfl⟩

/-- Settles O18: the one first silent address decides where VALIDATE stops. -/
theorem validateIsStuckAtTheFirstSilentAddress :
    Obligations.ValidateIsStuckAtTheFirstSilentAddress := by
  intro s bs hs ha hn hneed
  obtain ⟨t, ht, hhdr⟩ := execValidate_stuck hs ⟨ha, hn⟩ (validateNeeds_of_bytes ha hneed)
  obtain ⟨hv, he, hc, hcerr⟩ := execValidate_fault ht
  obtain ⟨-, hdest, hrdata⟩ := execValidate_frame (.inr (.inl ⟨_, ht, rfl⟩))
  refine ⟨t, ht, hv, he, hc, hcerr, hrdata, hdest, fun hlt => ?_⟩
  rw [hhdr hlt]
  exact ⟨rfl, rfl, rfl⟩

/-! ### The field commands at a silent address (R70) -/

/-- READ_SCALAR stops at the first silent address of its bytes. -/
theorem readScalar_stuck {n : Nat} {s : State} {bs : List Byte} (hv : s.vresult = .ok)
    (hb : s.argOffset.toNat + n + 9 ≤ s.hdrLen.toNat) (hl : bs.length < n)
    (hs : SilentAfter s.storage (fieldStart s) bs) :
    readScalar n s = .fault (.storageStuck (fieldStart s + BitVec.ofNat 32 bs.length)
      (withEvents s (readEvents (fieldStart s) bs))) := by
  have hr := readScalar_run n s
  generalize readScalar n s = r at hr ⊢
  cases hr with
  | notValidated hne => exact absurd hv hne
  | outOfBounds _ hlt => omega
  | stuck cs _ _ _ ha hn =>
    obtain rfl := hs.unique ⟨ha, hn⟩
    rfl
  | value cs _ _ hcs ha =>
    have := hs.length_le ha
    omega

/-- READ_FIELD stops at the first silent address of its bytes, if it can write the bytes before it. -/
theorem execReadField_stuckReading {s : State} {bs : List Byte} (hv : s.vresult = .ok)
    (hb : s.argOffset.toNat + s.argSize.toNat + 9 ≤ s.hdrLen.toNat) (hl : bs.length < s.argSize.toNat)
    (hs : SilentAfter s.storage (fieldStart s) bs) (hd : Accepts s s.argDest bs.length) :
    execReadField s = .fault (.storageStuck (fieldStart s + BitVec.ofNat 32 bs.length)
      (copied s (fieldStart s) s.argDest bs)) := by
  have blocked {cs : List Byte} {c : Byte} (ha : Answers s.storage (fieldStart s) (cs ++ [c]))
      (hk : s.destAdmits (s.argDest + BitVec.ofNat 32 cs.length) = false ∨
        s.hitsStorage (s.argDest + BitVec.ofNat 32 cs.length) = true) : False := by
    have hread := hs.length_le ha
    have hwrite := accepts_le_of_blocked hd hk
    rw [List.length_append, List.length_singleton] at hread
    omega
  have hr := execReadField_run s
  generalize execReadField s = r at hr ⊢
  cases hr with
  | notValidated hne => exact absurd hv hne
  | outOfBounds _ hlt => omega
  | stuckReading cs _ _ _ ha _ hn =>
    obtain rfl := hs.unique ⟨ha, hn⟩
    rfl
  | stuckWriting cs c _ _ _ ha _ hn => exact (blocked ha (.inl hn)).elim
  | overlaps cs c _ _ _ ha _ _ ho => exact (blocked ha (.inr ho)).elim
  | copies cs _ _ hcs ha =>
    have := hs.length_le ha
    omega

/-- Settles O32: READ_FIELD by `execReadField_stuckReading`, the scalars by `readScalar_stuck`. -/
theorem fieldCommandsAreStuckAtASilentAddress : Obligations.FieldCommandsAreStuckAtASilentAddress := by
  intro s bs hv ha hn p hp hl hb hd
  have hs : SilentAfter s.storage (fieldStart s) bs := ⟨ha, hn⟩
  simp only [List.mem_cons, List.not_mem_nil, or_false] at hp
  rcases hp with rfl | rfl | rfl | rfl
  · exact ⟨_, execReadField_stuckReading hv hb hl hs (hd rfl), rfl, rfl, rfl⟩
  · exact ⟨_, readScalar_stuck hv hb hl hs, rfl, rfl, rfl⟩
  · exact ⟨_, readScalar_stuck hv hb hl hs, rfl, rfl, rfl⟩
  · exact ⟨_, readScalar_stuck hv hb hl hs, rfl, rfl, rfl⟩

/-! ### READ_FIELD into the storage (R81, R255) -/

/-- READ_FIELD is refused at the first destination address where it would change the storage, if it can
read the byte for it and write the bytes before it. -/
theorem execReadField_refused {s : State} {bs : List Byte} {b : Byte} (hv : s.vresult = .ok)
    (hb : s.argOffset.toNat + s.argSize.toNat + 9 ≤ s.hdrLen.toNat) (hl : bs.length < s.argSize.toNat)
    (ha : Answers s.storage (fieldStart s) (bs ++ [b])) (hd : Accepts s s.argDest bs.length)
    (hadm : s.destAdmits (s.argDest + BitVec.ofNat 32 bs.length) = true)
    (ho : s.hitsStorage (s.argDest + BitVec.ofNat 32 bs.length) = true) :
    ∃ t, execReadField s =
      .refused (.destOverlapsStorage (s.argDest + BitVec.ofNat 32 bs.length) t) := by
  have hr := execReadField_run s
  generalize execReadField s = r at hr ⊢
  cases hr with
  | notValidated hne => exact absurd hv hne
  | outOfBounds _ hlt => omega
  | stuckReading cs _ _ _ hc hdc hn =>
    have hread := SilentAfter.length_le ⟨hc, hn⟩ ha
    have hwrite := accepts_le_of_blocked hdc (.inr ho)
    rw [List.length_append, List.length_singleton] at hread
    omega
  | stuckWriting cs c _ _ _ _ hdc hn =>
    have hlen : bs.length = cs.length :=
      Nat.le_antisymm (accepts_le_of_blocked hd (.inl hn)) (accepts_le_of_blocked hdc (.inr ho))
    rw [← hlen, hadm] at hn
    cases hn
  | overlaps cs c _ _ _ _ hdc _ hoc =>
    have hlen : bs.length = cs.length :=
      Nat.le_antisymm (accepts_le_of_blocked hd (.inr hoc)) (accepts_le_of_blocked hdc (.inr ho))
    exact ⟨_, by rw [hlen]⟩
  | copies cs _ _ hcs _ hdc =>
    have := accepts_le_of_blocked hdc (.inr ho)
    omega

/-- Settles O30: such a write would change the storage, so READ_FIELD is refused at it. -/
theorem overlappingDestinationIsRefused : Obligations.OverlappingDestinationIsRefused := by
  intro s bs b hv hsh hl hb ha hd hadm hover
  obtain ⟨t, ht⟩ := execReadField_refused hv hb hl ha hd hadm (State.hitsStorage_of_overlap hsh hover)
  exact ⟨t, ht, (execReadField_frame (.inr (.inr ⟨_, ht, rfl⟩))).1.storage⟩

/-! ### The storage reads that the history gains (R42, R75) -/

/-- From `s` to `t` the history has grown, and the storage reads added are at addresses in `P`. -/
def AddedReads (P : Addr → Prop) (s t : State) : Prop :=
  ∃ es : List Event, t.history = es ++ s.history ∧ ∀ a b, Event.storageRead a b ∈ es → P a

theorem addedReads_of_history_eq {P : Addr → Prop} {s t : State} (h : t.history = s.history) :
    AddedReads P s t := ⟨[], h, by simp⟩

theorem AddedReads.trans {P : Addr → Prop} {s t u : State} (h : AddedReads P s t)
    (hu : AddedReads P t u) : AddedReads P s u := by
  obtain ⟨es, he, hes⟩ := h
  obtain ⟨fs, hf, hfs⟩ := hu
  refine ⟨fs ++ es, by rw [hf, he, List.append_assoc], fun a b hm => ?_⟩
  exact (List.mem_append.1 hm).elim (hfs a b) (hes a b)

theorem addedReads_log {P : Addr → Prop} {a : Addr} (s : State) (b : Byte) (h : P a) :
    AddedReads P s (s.log (.storageRead a b)) := by
  refine ⟨[_], rfl, fun x y hm => ?_⟩
  cases List.mem_singleton.1 hm
  exact h

theorem addedReads_readEvents {P : Addr → Prop} {a : Addr} {bs : List Byte} (s : State)
    (h : ∀ i, i < bs.length → P (a + BitVec.ofNat 32 i)) :
    AddedReads P s (withEvents s (readEvents a bs)) := by
  refine ⟨_, withEvents_history _ _, fun x y hm => ?_⟩
  obtain ⟨i, c, hc, he⟩ := mem_readEvents (List.mem_reverse.1 hm)
  cases he
  exact h i (List.getElem?_eq_some_iff.1 hc).1

theorem addedReads_copied {P : Addr → Prop} {a : Addr} {bs : List Byte} (s : State) (d : Addr)
    (h : ∀ i, i < bs.length → P (a + BitVec.ofNat 32 i)) : AddedReads P s (copied s a d bs) := by
  refine ⟨_, copied_history s a d bs, fun x y hm => ?_⟩
  obtain ⟨i, c, hc, he | he⟩ := mem_copyEvents (List.mem_reverse.1 hm) <;> cases he
  exact h i (List.getElem?_eq_some_iff.1 hc).1

/-! ### Where the field commands read (R75(b), R170, R171) -/

/-- The storage addresses of the validated block's field data: from the end of the header to the
checksum. -/
def InFieldData (s : State) (a : Addr) : Prop :=
  ∃ k, a = s.regionBase + BitVec.ofNat 32 k ∧ 5 ≤ k ∧ k + 4 < s.hdrLen.toNat

/-- A request that passes the bound check lies in the field data. -/
theorem inFieldData_fieldStart {s : State} {n i : Nat}
    (hb : s.argOffset.toNat + n + 9 ≤ s.hdrLen.toNat) (hi : i < n) :
    InFieldData s (fieldStart s + BitVec.ofNat 32 i) :=
  ⟨5 + s.argOffset.toNat + i, addr_add _ _ _, by omega, by omega⟩

theorem readScalar_addedReads {n : Nat} {s t : State} (h : Reaches (readScalar n s) t) :
    AddedReads (InFieldData s) s t := by
  have hr := readScalar_run n s
  generalize readScalar n s = r at hr h
  cases hr with
  | notValidated | outOfBounds =>
    rw [reaches_finish] at h; subst h
    exact addedReads_of_history_eq rfl
  | stuck bs _ hb hl =>
    rw [reaches_fault] at h; subst h
    exact addedReads_readEvents s fun i hi => inFieldData_fieldStart hb (hi.trans hl)
  | value bs _ hb hl =>
    rw [reaches_finish] at h; subst h
    exact addedReads_readEvents s fun i hi => inFieldData_fieldStart hb (hl ▸ hi)

theorem execReadField_addedReads {s t : State} (h : Reaches (execReadField s) t) :
    AddedReads (InFieldData s) s t := by
  have copies {bs : List Byte} (hb : s.argOffset.toNat + s.argSize.toNat + 9 ≤ s.hdrLen.toNat)
      (hl : bs.length ≤ s.argSize.toNat) :
      AddedReads (InFieldData s) s (copied s (fieldStart s) s.argDest bs) :=
    addedReads_copied s _ fun i hi => inFieldData_fieldStart hb (hi.trans_le hl)
  have hr := execReadField_run s
  generalize execReadField s = r at hr h
  cases hr with
  | notValidated | outOfBounds =>
    rw [reaches_finish] at h; subst h
    exact addedReads_of_history_eq rfl
  | stuckReading bs _ hb hl =>
    rw [reaches_fault] at h; subst h
    exact copies hb hl.le
  | stuckWriting bs b _ hb hl =>
    rw [reaches_fault] at h; subst h
    exact (copies hb hl.le).trans (addedReads_log _ b (inFieldData_fieldStart hb hl))
  | overlaps bs b _ hb hl =>
    rw [reaches_refused] at h; cases h
    exact (copies hb hl.le).trans (addedReads_log _ b (inFieldData_fieldStart hb hl))
  | copies bs _ hb hl =>
    rw [reaches_finish] at h; subst h
    exact copies hb hl.le

/-- Settles O33: each read of a field command is at a byte of its request, which passed the bound check. -/
theorem fieldReadsStayInsideTheFieldData : Obligations.FieldReadsStayInsideTheFieldData := by
  intro s t i hi h
  simp only [List.mem_cons, List.not_mem_nil, or_false] at hi
  rcases hi with rfl | rfl | rfl | rfl
  · exact execReadField_addedReads h
  · exact readScalar_addedReads (n := 1) h
  · exact readScalar_addedReads (n := 2) h
  · exact readScalar_addedReads (n := 4) h

/-! ### Where VALIDATE reads (R75(a), R152) -/

/-- The storage addresses VALIDATE may read when the length is `len`: in the region, and in the header or
below the length. -/
def InBlock (s : State) (len : Nat) (a : Addr) : Prop :=
  ∃ k, a = s.regionBase + BitVec.ofNat 32 k ∧ k < s.regionSize.toNat ∧ (k < 5 ∨ k < len)

theorem addedReads_header {s : State} {bs : List Byte} (len : Nat) (hs : 5 ≤ s.regionSize.toNat)
    (hl : bs.length ≤ 5) :
    AddedReads (InBlock s len) s (withEvents s.clearView (readEvents s.regionBase bs)) :=
  addedReads_readEvents s.clearView fun i hi => ⟨i, rfl, by omega, .inl (by omega)⟩

theorem addedReads_covered {s : State} {h bs : List Byte} (hs : 5 ≤ s.regionSize.toNat)
    (hh : h.length = 5) (hb : ¬ HeaderBad s h) (hl : bs.length ≤ headerLength h - 4) :
    AddedReads (InBlock s (headerLength h)) s (covered s h bs) := by
  rw [HeaderBad] at hb
  exact (addedReads_header _ hs hh.le).trans (addedReads_readEvents
    ((headerLatched s h).withCrc _) fun i hi => ⟨i, rfl, by omega, .inr (by omega)⟩)

theorem addedReads_checksum {s : State} {h bs c : List Byte} (hs : 5 ≤ s.regionSize.toNat)
    (hh : h.length = 5) (hb : ¬ HeaderBad s h) (hl : bs.length = headerLength h - 4)
    (hk : c.length ≤ 4) :
    AddedReads (InBlock s (headerLength h)) s
      (withEvents (covered s h bs) (readEvents (checksumAddr s h) c)) := by
  refine (addedReads_covered hs hh hb hl.le).trans (addedReads_readEvents _ fun i hi => ?_)
  rw [HeaderBad] at hb
  exact ⟨headerLength h - 4 + i, addr_add _ _ _, by omega, .inr (by omega)⟩

theorem execValidate_addedReads {s t : State} (h : Reaches (execValidate s) t) :
    AddedReads (InBlock s t.hdrLen.toNat) s t := by
  have hr := execValidate_run s
  generalize execValidate s = r at hr h
  cases hr with
  | smallRegion =>
    rw [reaches_finishValidate] at h; subst h
    exact addedReads_of_history_eq rfl
  | stuckInHeader bs hs hl =>
    rw [reaches_fault] at h; subst h
    exact addedReads_header _ hs hl.le
  | badLength hd hs hh =>
    rw [reaches_finishValidate] at h; subst h
    exact addedReads_header _ hs hh.le
  | stuckInPass hd bs hs hh _ hb hl =>
    rw [reaches_fault] at h; subst h
    exact addedReads_covered hs hh hb hl.le
  | stuckInChecksum hd bs c hs hh _ hb hl _ hk =>
    rw [reaches_fault] at h; subst h
    exact addedReads_checksum hs hh hb hl hk.le
  | verdict hd bs c hs hh _ hb hl _ hk =>
    rw [reaches_finishValidate] at h; subst h
    exact addedReads_checksum hs hh hb hl hk.le

/-- Settles O34, part by part of VALIDATE's sequence: header, CRC pass, checksum. -/
theorem validateReadsStayInsideTheRegion : Obligations.ValidateReadsStayInsideTheRegion :=
  fun _ _ h => execValidate_addedReads h

end Sys2Proof.Machine
end

section
/-! SUPPORT. The proofs of the statements about the encoding (30_encoding.md).  On command words both
directions of the round trip, the opcode map and the illegal words come from the decoder's cases
(`decodeCommand_cases`); a pseudo-instruction's accesses come from those of the lines it expands to. -/

namespace Sys2Proof.Machine
open Sys2Proof

/-! ### Encoding and decoding (R90, R96, R98, R100) -/

/-- The round trip of every instruction, from those of its rows. -/
theorem roundTrip : ∀ i : Instr, Laws.RoundTrip.Statement i
  | .crcReset => Laws.RoundTrip.crcReset
  | .crcUpdate b => Laws.RoundTrip.crcUpdate b
  | .crcFinalize => Laws.RoundTrip.crcFinalize
  | .validate => Laws.RoundTrip.validate
  | .readField => Laws.RoundTrip.readField
  | .readScalarB => Laws.RoundTrip.readScalarB
  | .readScalarH => Laws.RoundTrip.readScalarH
  | .readScalarW => Laws.RoundTrip.readScalarW
  | .illegalCmd w => Laws.RoundTrip.illegalCmd w
  | .rdCmd => Laws.RoundTrip.rdCmd
  | .wrCmd v => Laws.RoundTrip.wrCmd v
  | .rdStatus => Laws.RoundTrip.rdStatus
  | .wrStatus v => Laws.RoundTrip.wrStatus v
  | .rdCrcState => Laws.RoundTrip.rdCrcState
  | .wrCrcState v => Laws.RoundTrip.wrCrcState v
  | .rdCrcResult => Laws.RoundTrip.rdCrcResult
  | .wrCrcResult v => Laws.RoundTrip.wrCrcResult v
  | .rdRegionBase => Laws.RoundTrip.rdRegionBase
  | .wrRegionBase v => Laws.RoundTrip.wrRegionBase v
  | .rdRegionSize => Laws.RoundTrip.rdRegionSize
  | .wrRegionSize v => Laws.RoundTrip.wrRegionSize v
  | .rdHdrId => Laws.RoundTrip.rdHdrId
  | .wrHdrId v => Laws.RoundTrip.wrHdrId v
  | .rdHdrLen => Laws.RoundTrip.rdHdrLen
  | .wrHdrLen v => Laws.RoundTrip.wrHdrLen v
  | .rdExpected => Laws.RoundTrip.rdExpected
  | .wrExpected v => Laws.RoundTrip.wrExpected v
  | .rdComputed => Laws.RoundTrip.rdComputed
  | .wrComputed v => Laws.RoundTrip.wrComputed v
  | .rdArgOffset => Laws.RoundTrip.rdArgOffset
  | .wrArgOffset v => Laws.RoundTrip.wrArgOffset v
  | .rdArgSize => Laws.RoundTrip.rdArgSize
  | .wrArgSize v => Laws.RoundTrip.wrArgSize v
  | .rdArgDest => Laws.RoundTrip.rdArgDest
  | .wrArgDest v => Laws.RoundTrip.wrArgDest v
  | .rdRdata => Laws.RoundTrip.rdRdata
  | .wrRdata v => Laws.RoundTrip.wrRdata v
  | .slverr38R => Laws.RoundTrip.slverr38R
  | .slverr38W v => Laws.RoundTrip.slverr38W v
  | .slverr3cR => Laws.RoundTrip.slverr3cR
  | .slverr3cW v => Laws.RoundTrip.slverr3cW v

/-- Settles O1, from the round trip of each row. -/
theorem decodeOfEncodeIsTheInstruction : Obligations.DecodeOfEncodeIsTheInstruction :=
  fun base i h => roundTrip i h base

/-- Settles O2: a legal command decoded fixes the whole word, and an illegal one keeps it. -/
theorem encodeOfDecodeIsTheWord : Obligations.EncodeOfDecodeIsTheWord := by
  intro w
  rcases decodeCommand_cases w with ⟨h, -⟩ | ⟨-, -, ⟨h, hw⟩ | ⟨h, hw⟩ | ⟨h, hw⟩ | ⟨h, hw⟩ | ⟨h, hw⟩ |
    ⟨h, hw⟩ | ⟨h, hw⟩ | ⟨h, hw⟩⟩ <;> rw [h]
  · exact ⟨rfl, by rw [Command.wellFormed, (decodeCommand_illegal_iff w).1 h]; rfl⟩
  all_goals exact ⟨hw.symm, rfl⟩

/-! ### The opcode map (R96, R98) -/

/-- No word matches both rows: their patterns differ in a bit that both rows look at (R98). -/
def RowsDisjoint (r q : OpcodeRow) : Prop := r.pattern &&& q.mask ≠ q.pattern &&& r.mask

theorem RowsDisjoint.not_both {r q : OpcodeRow} (h : RowsDisjoint r q) {w : Word}
    (hr : r.covers w = true) : q.covers w = false := by
  simp only [OpcodeRow.covers, beq_iff_eq] at hr
  refine beq_eq_false_iff_ne.2 fun hq => h ?_
  rw [← hr, ← hq, BitVec.and_assoc, BitVec.and_assoc, BitVec.and_comm r.mask]

theorem countP_covers_le_one {rows : List OpcodeRow} (h : rows.Pairwise RowsDisjoint) (w : Word) :
    rows.countP (fun r => r.covers w) ≤ 1 := by
  induction h with
  | nil => exact Nat.zero_le 1
  | @cons r rows hr _ ih =>
    rw [List.countP_cons]
    split
    · next hc =>
      rw [List.countP_eq_zero.2 fun q hq => by simp [(hr q hq).not_both hc]]
    · exact ih

theorem opcodeMap_disjoint : opcodeMap.Pairwise RowsDisjoint := by
  unfold RowsDisjoint; decide

/-- A row that looks at every bit covers one word. -/
theorem decodeCommand_of_full_mask {w v : Word} {c : Command} (hc : decodeCommand v = c)
    (h : w &&& 0xFFFFFFFF = v) : decodeCommand w = c := by
  rwa [← h, show (0xFFFFFFFF : Word) = BitVec.allOnes 32 from rfl, BitVec.and_allOnes] at hc

theorem decodeCommand_of_update_mask {w : Word} (h : w &&& 0xFFFF00FF = 2) :
    decodeCommand w = .crcUpdate (data8 w) := by
  obtain ⟨ho, h0, hf, h1⟩ := fields_of_update_mask h
  simp [decodeCommand, ho, h0, hf, h1]

/-- Settles O3, row by row. -/
theorem decodeFollowsTheOpcodeMap : Obligations.DecodeFollowsTheOpcodeMap := fun w =>
  ⟨countP_covers_le_one opcodeMap_disjoint w,
    decodeCommand_of_full_mask (by decide), decodeCommand_of_update_mask,
    decodeCommand_of_full_mask (by decide), decodeCommand_of_full_mask (by decide),
    decodeCommand_of_full_mask (by decide), decodeCommand_of_full_mask (by decide),
    decodeCommand_of_full_mask (by decide), decodeCommand_of_full_mask (by decide),
    (decodeCommand_illegal_iff w).2⟩

/-! ### Illegal words (R97, R196) -/

/-- R97's list of illegal words, in the fields of R91. -/
def IllegalFields (w : Word) : Prop :=
  opc w = 0x0 ∨ 0x7 ≤ opc w ∨ rsv0 w ≠ 0 ∨ rsv1 w ≠ 0 ∨ (data8 w ≠ 0 ∧ opc w ≠ 0x2) ∨
    (widthField w ≠ 0 ∧ opc w ≠ 0x6) ∨ widthField w = 3

/-- The words that R97 lists are exactly those that decode to ILLEGAL. -/
theorem illegalFields_iff (w : Word) : IllegalFields w ↔ decodeCommand w = .illegal w := by
  rcases decodeCommand_cases w with ⟨h, hf⟩ | ⟨-, -, ⟨h, hw⟩ | ⟨h, hw⟩ | ⟨h, hw⟩ | ⟨h, hw⟩ | ⟨h, hw⟩ |
    ⟨h, hw⟩ | ⟨h, hw⟩ | ⟨h, hw⟩⟩
  · exact iff_of_true (by unfold IllegalFields; tauto) h
  case inr.inr.inl =>
    obtain ⟨ho, h0, -, hf, h1⟩ := update_fields (data8 w)
    rw [← hw] at ho h0 hf h1
    exact iff_of_false (by simp [IllegalFields, ho, h0, hf, h1]) (by simp [h])
  all_goals exact iff_of_false (by rw [hw]; unfold IllegalFields; decide) (by simp [h])

/-- Settles O4: R97's list is `illegalFields_iff`, and an illegal command only finishes with its code. -/
theorem illegalWordsOnlySetCerr : Obligations.IllegalWordsOnlySetCerr :=
  fun w => ⟨illegalFields_iff w, fun h s => by rw [execWrCmd_eq, h]; rfl⟩

/-! ### Register accesses (R100, R190) -/

/-- Settles O6, by evaluating the decoder. -/
theorem specWordsDecode : Obligations.SpecWordsDecode := by
  unfold Obligations.SpecWordsDecode
  decide

/-- An access is an instruction exactly when it is 32 bits wide, aligned and in the window, and then it
is its offset's. -/
theorem decodeAccess_eq_instr_iff (base : Addr) (a : Access) (i : Instr) :
    decodeAccess base a = .instr i ↔
      (a.width = 32 ∧ windowOffset base a.addr % 4 = 0 ∧ windowOffset base a.addr < 0x40) ∧
      windowInstr (windowOffset base a.addr) a.op = i := by
  unfold decodeAccess Config.windowSize
  split
  · exact iff_of_false nofun (by omega)
  split
  · exact iff_of_false nofun (by tauto)
  split
  · exact iff_of_false nofun (by tauto)
  · rw [Decoded.instr.injEq]
    exact (and_iff_right ⟨by tauto, by tauto, by omega⟩).symm

/-- The row of R100 for the `k`-th word of the window: its offset, its read and its write. -/
def windowRow (v : Word) (k : Nat) : Addr × Instr × Instr :=
  (BitVec.ofNat 32 (4 * k), windowInstr (4 * k) .read, windowInstr (4 * k) (.write v))

/-- Settles O7: the table is that of the window's sixteen words, and each is a legal access. -/
theorem windowOffsetsDecode : Obligations.WindowOffsetsDecode := by
  refine fun base v => ⟨fun row hrow => ?_, fun a i h => ((decodeAccess_eq_instr_iff base a i).1 h).1⟩
  obtain ⟨k, hk, rfl⟩ := List.mem_map.1 (show row ∈ (List.range 16).map (windowRow v) from hrow)
  have hlt : 4 * k < 0x40 := by have := List.mem_range.1 hk; omega
  have h4 : 4 * k % 4 = 0 := Nat.mul_mod_right 4 k
  exact ⟨decodeAccess_legal base _ .read hlt h4, decodeAccess_legal base _ (.write v) hlt h4⟩

/-! ### Assembly lines (R101, R102) -/

/-- A line of R101 is the one access of its instruction. -/
theorem asmAccesses_line {base : Addr} {l : Asm} {i : Instr} (hl : asmExpand l = [l])
    (hi : asmInstr l = some i) : asmAccesses base l = [(encode base i).toAccess base] := by
  simp [asmAccesses, hl, hi]

/-- A line that writes CMD: CMD is at the start of the window (R23). -/
theorem asmAccesses_cmdLine {base : Addr} {l : Asm} {w : Word} (hl : asmExpand l = [l])
    (hi : asmInstr l = some (.wrCmd w)) : asmAccesses base l = [⟨base, 32, .write w⟩] := by
  simp [asmAccesses_line hl hi, encode, Issue.toAccess, writeAt]

theorem asmAccesses_wr (base : Addr) (r : Reg) (v : Word) :
    asmAccesses base (.wr r v) = [⟨base + BitVec.ofNat 32 r.offset, 32, .write v⟩] := by
  rw [asmAccesses_line rfl rfl]; cases r <;> rfl

theorem asmAccesses_rd (base : Addr) (r : Reg) :
    asmAccesses base (.rd r) = [⟨base + BitVec.ofNat 32 r.offset, 32, .read⟩] := by
  rw [asmAccesses_line rfl rfl]; cases r <;> rfl

/-- An expansion is not expanded again (R102). -/
theorem asmExpand_asmExpand (l : Asm) : (asmExpand l).flatMap asmExpand = asmExpand l := by
  have updates (bs : List Byte) : (bs.map Asm.crcUpdate).flatMap asmExpand = bs.map .crcUpdate := by
    simp [List.flatMap_map, asmExpand, ← List.map_eq_flatMap]
  cases l with
  | crcBytes bs => exact updates bs
  | crcOf bs => simp [asmExpand, updates]
  | _ => rfl

/-- A line's accesses are those of the lines it expands to (R102). -/
theorem asmAccesses_expand (base : Addr) (l : Asm) :
    asmAccesses base l = (asmExpand l).flatMap (asmAccesses base) := by
  rw [asmAccesses, ← asmExpand_asmExpand l, List.filterMap_flatMap, asmExpand_asmExpand l]
  rfl

theorem asmAccesses_crcBytes (base : Addr) (bs : List Byte) :
    asmAccesses base (.crcBytes bs) = bs.flatMap fun c => asmAccesses base (.crcUpdate c) := by
  rw [asmAccesses_expand, asmExpand, List.flatMap_map]

theorem asmAccesses_crcOf (base : Addr) (bs : List Byte) :
    asmAccesses base (.crcOf bs) =
      asmAccesses base .crcReset ++ asmAccesses base (.crcBytes bs) ++ asmAccesses base .crcFinal := by
  simp [asmAccesses_expand base (.crcOf bs), asmExpand, List.flatMap_map, asmAccesses_crcBytes]

theorem asmAccesses_pbRegion (base : Addr) (v size : Word) :
    asmAccesses base (.pbRegion v size) =
      [⟨base + 0x10, 32, .write v⟩, ⟨base + 0x14, 32, .write size⟩] := by
  rw [asmAccesses_expand]
  simp [asmExpand, asmAccesses_wr, Reg.offset]

/-- The pseudo-instructions of the field commands: register writes, then a command line (R102). -/
theorem asmAccesses_writes_cmdLine {base : Addr} {l c : Asm} {w : Word} (ws : List (Reg × Word))
    (hl : asmExpand l = ws.map (fun p => .wr p.1 p.2) ++ [c])
    (hc : asmAccesses base c = [⟨base, 32, .write w⟩]) :
    asmAccesses base l =
      ws.map (fun p => ⟨base + BitVec.ofNat 32 p.1.offset, 32, .write p.2⟩) ++
        [⟨base, 32, .write w⟩] := by
  rw [asmAccesses_expand, hl]
  simp [List.flatMap_map, asmAccesses_wr, hc, ← List.map_eq_flatMap]

/-- Settles O8: the lines of R101 one by one, and the pseudo-instructions from the lines of theirs. -/
theorem assemblyLinesExpand : Obligations.AssemblyLinesExpand := fun base _ bs v off size dest =>
  ⟨asmAccesses_cmdLine rfl rfl, asmAccesses_cmdLine rfl rfl, asmAccesses_cmdLine rfl rfl,
    asmAccesses_cmdLine rfl rfl, asmAccesses_cmdLine rfl rfl, asmAccesses_cmdLine rfl rfl,
    asmAccesses_cmdLine rfl rfl, asmAccesses_cmdLine rfl rfl, asmAccesses_cmdLine rfl rfl,
    fun r => ⟨asmAccesses_wr base r v, asmAccesses_rd base r⟩,
    asmAccesses_crcBytes base bs, asmAccesses_pbRegion base v size,
    asmAccesses_writes_cmdLine [(.argOffset, off), (.argSize, size), (.argDest, dest)] rfl
      (asmAccesses_cmdLine rfl rfl),
    asmAccesses_writes_cmdLine [(.argOffset, off)] rfl (asmAccesses_cmdLine rfl rfl),
    asmAccesses_writes_cmdLine [(.argOffset, off)] rfl (asmAccesses_cmdLine rfl rfl),
    asmAccesses_writes_cmdLine [(.argOffset, off)] rfl (asmAccesses_cmdLine rfl rfl),
    asmAccesses_crcOf base bs⟩

end Sys2Proof.Machine
end

section
/-! SUPPORT. The proofs of the statements about the CRC engine (40_crc.md).  The loop of R120 is eight
steps of the register alone, once the byte is XORed in (`crcLoop_xor`).  A step can be undone, because
the bit that left shows in bit 31, so an update loses neither the register nor the byte. -/

namespace Sys2Proof.Machine
open Sys2Proof

/-! ### The update as eight steps of the register (R120, R128) -/

/-- The register shifts right by one, and the polynomial is XORed in when a 1 leaves (R128). -/
def crcStep (x : Word) : Word := if x.getLsbD 0 then (x >>> 1) ^^^ Config.crcPoly else x >>> 1

/-- Feeding one bit of a byte is a step of the register with the byte XORed in; the bits of the byte not
yet fed stay XORed in. -/
theorem crcShift_xor (r : Word) (b : Byte) :
    crcShift r b ^^^ (b >>> 1).setWidth 32 = crcStep (r ^^^ b.setWidth 32) := by
  have hbit : (b ^^^ r.setWidth 8).getLsbD 0 = (r ^^^ b.setWidth 32).getLsbD 0 := by
    simp [Bool.xor_comm]
  have hshift : (r ^^^ b.setWidth 32) >>> 1 = r >>> 1 ^^^ (b >>> 1).setWidth 32 := by
    rw [BitVec.ushiftRight_xor_distrib, BitVec.setWidth_ushiftRight (by decide)]
  simp only [crcShift, crcStep, hbit, hshift]
  split
  · rw [BitVec.xor_assoc, BitVec.xor_assoc, BitVec.xor_comm Config.crcPoly]
  · rfl

theorem crcLoop_xor (n : Nat) : ∀ (r : Word) (b : Byte),
    crcLoop n r b ^^^ (b >>> n).setWidth 32 = crcStep^[n] (r ^^^ b.setWidth 32) := by
  induction n with
  | zero => intro r b; simp [crcLoop]
  | succ n ih =>
    intro r b
    have hb : b >>> (n + 1) = b >>> 1 >>> n := by rw [Nat.add_comm, BitVec.shiftRight_add]
    rw [crcLoop, hb, ih, crcShift_xor, Function.iterate_succ_apply]

theorem crcUpdateByte_eq_iterate (r : Word) (b : Byte) :
    crcUpdateByte r b = crcStep^[8] (r ^^^ b.setWidth 32) := by
  have hb : b >>> 8 = 0#8 := BitVec.ushiftRight_eq_zero (Nat.le_refl 8)
  rw [← crcLoop_xor, hb]
  simp [crcUpdateByte]

/-- Settles O12: `crcUpdateByte_eq_iterate`, with the iteration written as `Nat.repeat`. -/
theorem crcUpdateByteIsXorThenEightShifts : Obligations.CrcUpdateByteIsXorThenEightShifts :=
  crcUpdateByte_eq_iterate

/-! ### A host-driven pass (R125) -/

/-- CRC_UPDATE of each byte in order, after a command that ended with CERR NONE, runs the register over
the bytes. -/
theorem execAll_crcUpdates (s : State) (is : List Instr) (bs : List Byte) : ∀ r : Word,
    execAll (bs.map .crcUpdate ++ is) ((s.withCrc r).complete .none) =
      execAll is ((s.withCrc (crcRun r bs)).complete .none) := by
  induction bs with
  | nil => exact fun _ => rfl
  | cons b bs ih => exact fun r => ih (crcUpdateByte r b)

/-- Settles O13: the updates run from the register that CRC_RESET leaves. -/
theorem hostDrivenPassComputesTheCrc : Obligations.HostDrivenPassComputesTheCrc := by
  intro bs s
  rw [not_crcOf]
  exact execAll_crcUpdates s [.crcFinalize] bs Config.crcInit

/-! ### A changed byte changes the CRC (R127) -/

/-- Bit 31 after a step is the bit that left: a shift clears it and the polynomial has it. -/
theorem crcStep_getLsbD_31 (x : Word) : (crcStep x).getLsbD 31 = x.getLsbD 0 := by
  unfold crcStep
  split
  · next h => simp [h, Config.crcPoly]
  · next h => simpa using h

theorem crcStep_injective : Function.Injective crcStep := by
  intro x y h
  have h0 : x.getLsbD 0 = y.getLsbD 0 := by rw [← crcStep_getLsbD_31, h, crcStep_getLsbD_31]
  have hs : x >>> 1 = y >>> 1 := by
    unfold crcStep at h
    rw [h0] at h
    split at h
    · exact (BitVec.xor_left_inj _).1 h
    · exact h
  refine BitVec.eq_of_getLsbD_eq fun i _ => ?_
  cases i with
  | zero => exact h0
  | succ i => simpa [Nat.add_comm] using congrArg (·.getLsbD i) hs

/-- Equal updates have equal registers with the byte XORed in. -/
theorem xor_eq_of_crcUpdateByte_eq {r q : Word} {b c : Byte}
    (h : crcUpdateByte r b = crcUpdateByte q c) : r ^^^ b.setWidth 32 = q ^^^ c.setWidth 32 := by
  rw [crcUpdateByte_eq_iterate, crcUpdateByte_eq_iterate] at h
  exact crcStep_injective.iterate 8 h

theorem crcUpdateByte_register_injective (b : Byte) :
    Function.Injective fun r => crcUpdateByte r b :=
  fun _ _ h => (BitVec.xor_left_inj _).1 (xor_eq_of_crcUpdateByte_eq h)

theorem crcUpdateByte_byte_injective (r : Word) : Function.Injective (crcUpdateByte r) := by
  intro b c h
  have hw : b.setWidth 32 = c.setWidth 32 :=
    (BitVec.xor_right_inj _).1 (xor_eq_of_crcUpdateByte_eq h)
  bv_omega

theorem crcRun_injective (bs : List Byte) : Function.Injective fun r => crcRun r bs := by
  induction bs with
  | nil => exact Function.injective_id
  | cons b bs ih => exact ih.comp (crcUpdateByte_register_injective b)

/-- Settles O14: the bytes after the changed one keep the registers apart, and the update by that byte
tells the two bytes apart. -/
theorem crcDetectsAnyOneByteChange : Obligations.CrcDetectsAnyOneByteChange := by
  refine ⟨by decide, by decide +kernel, fun before after b c hbc h => hbc ?_⟩
  have hrun := crcFinalize_inj h
  rw [crcRun_append, crcRun_append, crcRun_cons, crcRun_cons] at hrun
  exact crcUpdateByte_byte_injective _ (crcRun_injective after hrun)

/-! ### The three commands (R122 to R124) -/

/-- A word of R97's list only sets CERR when it is written to CMD, so CRC_STATE is unchanged (R196). -/
theorem wrCmd_of_illegalFields {w : Word} (h : IllegalFields w) :
    decodeCommand w = .illegal w ∧
    ∀ s : State, ∃ t, exec (.wrCmd w) s = .next t ∧ t.crcState = s.crcState ∧ t.cerr = .illegalCmd := by
  obtain ⟨hiff, hwrite⟩ := illegalWordsOnlySetCerr w
  have hd := hiff.1 h
  exact ⟨hd, fun s => ⟨_, hwrite hd s, rfl, rfl⟩⟩

/-- OPC 1 with any other bit is in R97's list. -/
theorem illegalFields_of_opc_one {w : Word} (ho : opc w = 0x1) (hw : w ≠ 0x00000001) :
    IllegalFields w := by
  have h2 : opc w ≠ 0x2 := by rw [ho]; decide
  have h6 : opc w ≠ 0x6 := by rw [ho]; decide
  by_contra h
  simp only [IllegalFields, not_or, not_and, not_not] at h
  obtain ⟨-, -, h0, h1, hd, hf, -⟩ := h
  exact hw (word_eq_of_fields ho h0 (not_not.1 (mt hd h2)) (not_not.1 (mt hf h6)) h1)

/-- Settles O9: an OPC 1 word with another bit is illegal, and CRC_RESET itself runs by definition. -/
theorem crcResetSetsAllOnes : Obligations.CrcResetSetsAllOnes :=
  ⟨by decide, fun _ ho hw => wrCmd_of_illegalFields (illegalFields_of_opc_one ho hw), fun _ => rfl⟩

/-- OPC 2 with a nonzero WIDTH or reserved bit is in R97's list. -/
theorem illegalFields_of_opc_two {w : Word} (ho : opc w = 0x2)
    (h : rsv0 w ≠ 0 ∨ widthField w ≠ 0 ∨ rsv1 w ≠ 0) : IllegalFields w := by
  have h6 : opc w ≠ 0x6 := by rw [ho]; decide
  unfold IllegalFields
  tauto

/-- Settles O10: the word of a byte decodes to its CRC_UPDATE; an OPC 2 word with WIDTH or a
reserved bit is illegal. -/
theorem crcUpdateConsumesOneByte : Obligations.CrcUpdateConsumesOneByte :=
  ⟨decodeCommand_update, fun _ ho h => wrCmd_of_illegalFields (illegalFields_of_opc_two ho h),
    fun _ _ => rfl, by decide, by decide, by decide⟩

/-- Settles O11: CRC_FINALIZE and the CRC_RESULT read are both the complement of CRC_STATE. -/
theorem crcFinalizeLatchesTheComplement : Obligations.CrcFinalizeLatchesTheComplement :=
  ⟨by decide, fun s => ⟨rfl, rfl, fun h => by rw [h]; decide⟩⟩

end Sys2Proof.Machine
end

section
/-! SUPPORT. The proofs of the statements about VALIDATE (41_validator.md) and of the invariant of every
step.  VALIDATE answers a next state exactly where it ends in one of three ways, and each way fixes that
state (`execValidate_eq_next_iff`), so each statement is about the three ways.  The invariant is proved in
two parts, since a stuck VALIDATE keeps the memories and the history consistent but may leave a latched
header without a verdict: the first part of every state a step reaches, the view of next states alone. -/

namespace Sys2Proof.Machine
open Sys2Proof

/-! ### The history and the memories along a step (R40, R41, R70, R71) -/

/-- The part of `Consistent` that holds of a stuck command's state too: all but the view. -/
structure RecordsConsistent (s : State) : Prop where
  storage_wf : s.storage.wf
  dest_wf : s.dest.wf
  history : ∀ e ∈ s.history, EventFaithful s e

theorem consistent_iff (s : State) : Consistent s ↔ RecordsConsistent s ∧ ViewConsistent s :=
  ⟨fun h => ⟨⟨h.storage_wf, h.dest_wf, h.history⟩, h.view⟩,
    fun ⟨h, hv⟩ => ⟨h.storage_wf, h.dest_wf, hv, h.history⟩⟩

/-- Whether an event is faithful depends on the storage and the platform alone. -/
theorem eventFaithful_congr {s t : State} (hs : t.storage = s.storage) (hp : t.platform = s.platform)
    (e : Event) : EventFaithful t e ↔ EventFaithful s e := by
  cases e <;> simp [EventFaithful, State.destAdmits, hs, hp]

/-- Adding faithful events, and changing the destination by writes alone, keeps the records consistent. -/
theorem RecordsConsistent.add {s t : State} {es fs : List Event} (h : RecordsConsistent s)
    (hs : t.storage = s.storage) (hp : t.platform = s.platform) (hh : t.history = es ++ s.history)
    (hd : t.dest = replayWrites fs s.dest) (he : ∀ e ∈ es, EventFaithful s e) :
    RecordsConsistent t where
  storage_wf := hs ▸ h.storage_wf
  dest_wf := hd ▸ wf_replayWrites fs h.dest_wf
  history := by
    rw [hh]
    exact fun e hm => (eventFaithful_congr hs hp e).2 (forall_append he h.history e hm)

/-- Recording a register access keeps the records consistent. -/
theorem RecordsConsistent.record {s t : State} {e : Event} (h : RecordsConsistent s)
    (hs : t.storage = s.storage) (hp : t.platform = s.platform) (hh : t.history = e :: s.history)
    (hd : t.dest = s.dest) (he : EventFaithful s e) : RecordsConsistent t :=
  h.add (es := [e]) (fs := []) hs hp hh hd (by simpa using he)

theorem RecordsConsistent.logRegWrite {s : State} (h : RecordsConsistent s) (off : Nat) (v : Word) :
    RecordsConsistent (s.log (.regWrite off v)) := h.record rfl rfl rfl rfl trivial

theorem execCommand_recordsConsistent {c : Command} {s t : State} (h : Reaches (execCommand c s) t)
    (hs : RecordsConsistent s) : RecordsConsistent t := by
  have hf := execCommand_frame h
  obtain ⟨es, hh, hd, he, -⟩ := execCommand_history h
  exact hs.add hf.storage hf.platform hh hd he

/-- A command cut off after some of its accesses: those accesses are recorded and no others. -/
theorem abortAfter_recordsConsistent {c : Command} {s t : State} (h : Reaches (execCommand c s) t)
    (k : Nat) (hs : RecordsConsistent s) : RecordsConsistent (abortAfter k s t) := by
  obtain ⟨es, hh, -, he, -⟩ := execCommand_history h
  refine hs.add (es := ((eventsSince s t).take k).reverse) rfl rfl rfl rfl fun e hm => he e ?_
  rw [eventsSince_of_history hh] at hm
  exact List.mem_reverse.1 (List.mem_of_mem_take (List.mem_reverse.1 hm))

theorem exec_recordsConsistent {i : Instr} {s t : State} (h : Reaches (exec i s) t)
    (hs : RecordsConsistent s) : RecordsConsistent t := by
  refine exec_reaches (P := RecordsConsistent) h ?command ?cmdWrite ?read ?write ?readError ?writeError
  case command => exact fun _ _ hc => execCommand_recordsConsistent hc hs
  case cmdWrite => exact fun _ _ hc => execCommand_recordsConsistent hc (hs.logRegWrite _ _)
  case read => exact fun _ _ _ => hs.record rfl rfl rfl rfl trivial
  case write =>
    exact fun r v _ => hs.record (s.writeReg_storage v r) (s.writeReg_platform v r)
      (congrArg _ (s.writeReg_history v r)) (s.writeReg_dest v r) trivial
  case readError => exact fun _ _ _ => hs.record rfl rfl rfl rfl trivial
  case writeError => exact fun _ _ _ => hs.record rfl rfl rfl rfl trivial

/-- Every state a step reaches, stuck or refused ones included, has consistent records. -/
theorem step_recordsConsistent {s t : State} (h : Reaches (step s) t) (hs : RecordsConsistent s) :
    RecordsConsistent t := by
  have queue (es : List HostEvent) : RecordsConsistent { s with pending := es } :=
    ⟨hs.storage_wf, hs.dest_wf, hs.history⟩
  refine step_reaches (P := RecordsConsistent) h ?idle ?access ?reset ?resetDuring
  case idle => exact fun _ => hs
  case access =>
    exact fun _ rest _ ha => serveAccess_reaches (P := RecordsConsistent) ha (queue rest)
      (fun _ hi => exec_recordsConsistent hi (queue rest))
      (fun _ _ => (queue rest).record rfl rfl rfl rfl trivial)
      (fun _ _ => (queue rest).record rfl rfl rfl rfl trivial)
  case reset => exact fun rest _ => ⟨hs.storage_wf, hs.dest_wf, hs.history⟩
  case resetDuring =>
    rintro w k rest u _ hu (rfl | rfl)
    · exact execCommand_recordsConsistent hu ((queue rest).logRegWrite _ _)
    · exact abortAfter_recordsConsistent hu k ((queue rest).logRegWrite _ _)

/-! ### How VALIDATE ends (R141 to R150) -/

/-- Everything the verdict can be. -/
theorem State.verdict_cases (s : State) :
    (s.verdict = .checksumMismatch ∧ s.computed ≠ s.expected) ∨
    (s.verdict = .headerNotFound ∧ s.computed = s.expected ∧ s.hdrId.tag ≠ s.platform.tagSentinel) ∨
    (s.verdict = .ok ∧ s.computed = s.expected ∧ s.hdrId.tag = s.platform.tagSentinel) := by
  unfold State.verdict
  split
  · next hc => exact .inl ⟨rfl, hc⟩
  · next hc =>
    rw [not_not] at hc
    split
    · next ht => exact .inr (.inl ⟨rfl, hc, ht⟩)
    · next ht => exact .inr (.inr ⟨rfl, hc, not_not.1 ht⟩)

theorem State.verdict_ok_iff (s : State) : s.verdict = .ok ↔
    s.computed = s.expected ∧ s.hdrId.tag = s.platform.tagSentinel := by
  rcases s.verdict_cases with ⟨hv, hc⟩ | ⟨hv, -, ht⟩ | ⟨hv, hc, ht⟩
  · simp [hv, hc]
  · simp [hv, ht]
  · simp [hv, hc, ht]

theorem State.verdict_checksumMismatch_iff (s : State) :
    s.verdict = .checksumMismatch ↔ s.computed ≠ s.expected := by
  rcases s.verdict_cases with ⟨hv, hc⟩ | ⟨hv, hc, -⟩ | ⟨hv, hc, -⟩ <;> simp [hv, hc]

/-- A length that is not refused is at least 9 and within the region (R145). -/
theorem not_headerBad_iff {s : State} {h : List Byte} :
    ¬ HeaderBad s h ↔ 9 ≤ headerLength h ∧ headerLength h ≤ s.regionSize.toNat := by
  rw [HeaderBad, not_or, Nat.not_lt, Nat.not_lt]

/-- The region is large enough for a header, and the storage answers the header `h` (R143, R144). -/
structure HeaderRead (s : State) (h : List Byte) : Prop where
  region : 5 ≤ s.regionSize.toNat
  length : h.length = 5
  answers : Answers s.storage s.regionBase h

/-- The storage answers a block with the header `h`, a legal length, the covered bytes `bs` (the header
among them) and the checksum bytes `c` (R145 to R147). -/
structure BlockRead (s : State) (h bs c : List Byte) : Prop extends HeaderRead s h where
  legal : ¬ HeaderBad s h
  covered_length : bs.length = headerLength h - 4
  covered : Answers s.storage s.regionBase bs
  checksum_length : c.length = 4
  checksum : Answers s.storage (checksumAddr s h) c

/-- The states in which VALIDATE ends, from `s`. -/
inductive ValidateEnds (s : State) : State → Prop where
  | smallRegion (hs : s.regionSize.toNat < 5) :
      ValidateEnds s ((s.clearView.withVresult .lengthInvalid).complete .none)
  | badLength {h : List Byte} (hh : HeaderRead s h) (hb : HeaderBad s h) :
      ValidateEnds s (((headerLatched s h).withVresult .lengthInvalid).complete .none)
  | verdict {h bs c : List Byte} (hb : BlockRead s h bs c) :
      ValidateEnds s (((summed s h bs c).withVresult (summed s h bs c).verdict).complete .none)

theorem crcPass_of_answers {a : Addr} {s : State} {bs : List Byte} (h : Answers s.storage a bs) :
    crcPass a bs.length s = .done () (crcPassed s a bs) := by
  rcases crcPass_cases bs.length a s with ⟨cs, hl, hc, hp⟩ | ⟨cs, hl, -, hn, -⟩
  · rw [hp, answers_unique hc h hl]
  · exact absurd hn (answers_not_silent h hl)

/-- VALIDATE goes on from the header it has read by the length check (R144, R145). -/
theorem execValidate_of_headerRead {s : State} {h : List Byte} (hh : HeaderRead s h) :
    execValidate s = if (headerLatched s h).lengthBad then
      finishValidate .lengthInvalid (headerLatched s h) else validateBody (headerLatched s h) := by
  rw [execValidate, if_neg (Nat.not_lt.2 hh.region), show Config.hdrSize = h.length from hh.length.symm,
    readBytes_of_answers h s.regionBase s.clearView hh.answers]
  rfl

/-- The rest of VALIDATE on a block that the storage answers (R146 to R150). -/
theorem validateBody_of_blockRead {s : State} {h bs c : List Byte} (hb : BlockRead s h bs c) :
    validateBody (headerLatched s h) = finishValidate (summed s h bs c).verdict (summed s h bs c) := by
  rw [validateBody]
  change Reply.andThen (crcPass s.regionBase (headerLength h - 4) _) _ = _
  rw [← hb.covered_length,
    crcPass_of_answers (s := (headerLatched s h).withCrc Config.crcInit) hb.covered, Reply.andThen_done]
  change Reply.andThen (readBytes (checksumAddr s h) 4 (covered s h bs)) _ = _
  rw [← hb.checksum_length, readBytes_of_answers c _ (covered s h bs) hb.checksum]
  rfl

/-- VALIDATE answers a next state exactly where it ends in one of the three ways. -/
theorem execValidate_eq_next_iff {s t : State} : execValidate s = .next t ↔ ValidateEnds s t := by
  constructor
  · intro ht
    rcases execValidate_next ht with ⟨hs, rfl⟩ | ⟨h, hs, hl, ha, hb, rfl⟩ |
      ⟨h, bs, c, hs, hl, ha, hb, hbl, hba, hcl, hca, rfl⟩
    · exact .smallRegion hs
    · exact .badLength ⟨hs, hl, ha⟩ hb
    · exact .verdict ⟨⟨hs, hl, ha⟩, hb, hbl, hba, hcl, hca⟩
  · rintro (hs | ⟨hh, hb⟩ | hb)
    · exact if_pos hs
    · rw [execValidate_of_headerRead hh, if_pos ((headerLatched_lengthBad s _).2 hb)]
      rfl
    · rw [execValidate_of_headerRead hb.toHeaderRead,
        if_neg (mt (headerLatched_lengthBad s _).1 hb.legal), validateBody_of_blockRead hb]
      rfl

/-! ### The view along a step (R142 to R150, R240) -/

/-- A verdict agrees with the latched registers, and a length that was not refused is at least 9. -/
theorem viewConsistent_verdict {s : State} (h : 9 ≤ s.hdrLen.toNat) :
    ViewConsistent ((s.withVresult s.verdict).complete .none) := by
  rcases s.verdict_cases with ⟨hv, hc⟩ | ⟨hv, hc, ht⟩ | ⟨hv, hc, ht⟩ <;> rw [hv]
  · exact ⟨h, hc⟩
  · exact ⟨h, hc, ht⟩
  · exact ⟨h, hc, ht⟩

theorem BlockRead.nine_le {s : State} {h bs c : List Byte} (hb : BlockRead s h bs c) :
    9 ≤ headerLength h := (not_headerBad_iff.1 hb.legal).1

theorem ValidateEnds.viewConsistent {s t : State} (h : ValidateEnds s t) : ViewConsistent t := by
  cases h with
  | smallRegion hs => exact ⟨rfl, rfl⟩
  | badLength hh hb => exact ⟨rfl, rfl⟩
  | verdict hb => exact viewConsistent_verdict hb.nine_le

theorem viewConsistent_congr {s t : State} (hv : t.view = s.view) (hp : t.platform = s.platform) :
    ViewConsistent t ↔ ViewConsistent s := by
  obtain ⟨h1, h2, h3, h4, h5⟩ := (State.view_eq_iff s t).1 hv
  simp only [ViewConsistent, h1, h2, h3, h4, h5, hp]

/-- A command that finishes leaves a consistent view: VALIDATE's own, or for any other the one before. -/
theorem execCommand_viewConsistent {c : Command} {s t : State} (h : execCommand c s = .next t)
    (hs : ViewConsistent s) : ViewConsistent t := by
  by_cases hv : t.view = s.view
  · exact (viewConsistent_congr hv (execCommand_frame (.inl h)).platform).2 hs
  · obtain rfl := execCommand_view (.inl h) hv
    exact (execValidate_eq_next_iff.1 h).viewConsistent

theorem exec_viewConsistent {i : Instr} {s t : State} (h : exec i s = .next t)
    (hs : ViewConsistent s) : ViewConsistent t := by
  rcases exec_cases i s with ⟨c, -, e⟩ | ⟨w, -, e⟩ | ⟨r, -, e⟩ | ⟨r, v, -, -, e⟩ | ⟨off, -, e⟩ |
    ⟨off, v, -, e⟩ <;> rw [e] at h
  · exact execCommand_viewConsistent h hs
  · exact execCommand_viewConsistent h hs
  · cases h; exact hs
  · cases h
    exact (viewConsistent_congr (portKeeps_view.written _ _ _ _) (s.writeReg_platform v r)).2 hs
  · cases h; exact hs
  · cases h; exact hs

theorem serveAccess_viewConsistent {a : Access} {s t : State} (h : serveAccess a s = .next t)
    (hs : ViewConsistent s) : ViewConsistent t := by
  have error (off : Nat) (op : Transfer) (h : busError off op s = .next t) : ViewConsistent t := by
    cases op <;> cases h <;> exact hs
  unfold serveAccess at h
  split at h
  · exact exec_viewConsistent h hs
  · cases h; exact hs
  · exact error _ _ h
  · exact error _ _ h

theorem viewConsistent_hardwareReset (s : State) : ViewConsistent s.hardwareReset :=
  ⟨rfl, rfl, rfl, rfl⟩

theorem step_viewConsistent {s t : State} (h : step s = .next t) (hs : ViewConsistent s) :
    ViewConsistent t := by
  unfold step at h
  split at h
  · cases h; exact hs
  · next e rest _ =>
    cases e with
    | access a => exact serveAccess_viewConsistent h hs
    | reset => cases h; exact viewConsistent_hardwareReset _
    | resetDuring w k =>
      rcases serveResetDuring_cases w k { s with pending := rest } with ⟨u, -, e⟩ | ⟨q, -, -, e⟩
      · cases e.symm.trans h; exact viewConsistent_hardwareReset _
      · cases e.symm.trans h

/-- Settles O43: the memories and the history stay consistent on every path, the view on every path that
answers a next state. -/
theorem stepKeepsConsistency : Obligations.StepKeepsConsistency := by
  intro s t hs h
  obtain ⟨hr, hv⟩ := (consistent_iff s).1 hs
  exact (consistent_iff t).2 ⟨step_recordsConsistent (.inl h) hr, step_viewConsistent h hv⟩

/-! ### The latched values and the history at the end (R144 to R152) -/

/-- The storage reads of VALIDATE on a block, in order: the header, the covered bytes, the checksum
(R152). -/
def blockReads (s : State) (h bs c : List Byte) : List Event :=
  readEvents s.regionBase h ++ readEvents s.regionBase bs ++ readEvents (checksumAddr s h) c

/-- What VALIDATE has latched of a block before the verdict, and what it has recorded by then. -/
theorem summed_eq (s : State) (h bs c : List Byte) : summed s h bs c =
    withEvents { s with
      vresult := .none
      hdrId := HdrId.ofBytes h
      hdrLen := leHalf (h.drop 3)
      crcState := crcRun Config.crcInit bs
      expected := leWord c
      computed := crcOf bs } (blockReads s h bs c) := by
  rw [blockReads, ← withEvents_append, ← withEvents_append]
  rfl

/-- Settles O15: the first way VALIDATE ends. -/
theorem validateRejectsASmallRegionUnread : Obligations.ValidateRejectsASmallRegionUnread :=
  fun _ hs => execValidate_eq_next_iff.2 (.smallRegion hs)

/-- Settles O16: the second way VALIDATE ends, on five header bytes. -/
theorem validateRejectsABadLength : Obligations.ValidateRejectsABadLength := by
  intro s h0 h1 h2 h3 h4 hs ha hb
  rw [← headerLength_five h0 h1 h2 h3 h4] at hb
  rw [← leHalf_two h3 h4]
  exact execValidate_eq_next_iff.2 (.badLength ⟨hs, rfl, ha⟩ hb)

/-- A header, field data and four checksum bytes, one after another, are a block if the header's length is
their total and within the region (R139, R144 to R147). -/
theorem blockRead_of_answers {s : State} {h field c : List Byte} (hh : h.length = 5)
    (hc : c.length = 4) (hl : headerLength h = field.length + 9)
    (hs : field.length + 9 ≤ s.regionSize.toNat)
    (ha : Answers s.storage s.regionBase (h ++ field ++ c)) : BlockRead s h (h ++ field) c := by
  obtain ⟨hcov, hsum⟩ := (answers_append _ _ _ _).1 ha
  have hlen : (h ++ field).length = headerLength h - 4 := by
    rw [List.length_append]
    omega
  exact ⟨⟨by omega, hh, ((answers_append _ _ _ _).1 hcov).1⟩, not_headerBad_iff.2 (by omega), hlen, hcov,
    hc, by rwa [checksumAddr_eq hlen]⟩

/-- Settles O17: the third way VALIDATE ends, on header, field data and checksum bytes. -/
theorem validateGivesTheVerdict : Obligations.ValidateGivesTheVerdict := by
  intro s h0 h1 h2 h3 h4 c0 c1 c2 c3 field hl hs ha
  rw [← headerLength_five h0 h1 h2 h3 h4] at hl
  have hb : BlockRead s [h0, h1, h2, h3, h4] ([h0, h1, h2, h3, h4] ++ field) [c0, c1, c2, c3] :=
    blockRead_of_answers rfl rfl hl hs ha
  have hsum : checksumAddr s [h0, h1, h2, h3, h4] =
      s.regionBase + BitVec.ofNat 32 (field.length + 5) := checksumAddr_eq hb.covered_length
  have hend := execValidate_eq_next_iff.2 (.verdict hb)
  rw [summed_eq] at hend
  rw [← hsum, ← leHalf_two h3 h4, ← leWord_four c0 c1 c2 c3, not_crcOf]
  exact hend

/-- Settles O20: only the third way touches CRC_STATE, and it leaves the register of the CRC pass. -/
theorem validateLeavesTheRunningRegister : Obligations.ValidateLeavesTheRunningRegister := by
  intro s t ht
  cases execValidate_eq_next_iff.1 ht with
  | smallRegion hs => exact ⟨nofun, fun _ => rfl, fun hne => absurd rfl hne⟩
  | badLength hh hb => exact ⟨nofun, fun _ => rfl, fun hne => absurd rfl hne⟩
  | @verdict h bs c hb =>
    have hv : (summed s h bs c).verdict ≠ .none ∧ (summed s h bs c).verdict ≠ .lengthInvalid := by
      rcases (summed s h bs c).verdict_cases with ⟨hv, -⟩ | ⟨hv, -⟩ | ⟨hv, -⟩ <;> simp [hv]
    refine ⟨hv.1, fun he => absurd he hv.2, fun _ => ⟨?_, rfl, hb.nine_le, bs, hb.covered_length,
      hb.covered, rfl⟩⟩
    exact BitVec.not_not.symm

/-- Settles O21, in the order of the three ways VALIDATE ends. -/
theorem validateOutcomePriority : Obligations.ValidateOutcomePriority := by
  intro s t ht
  cases execValidate_eq_next_iff.1 ht with
  | smallRegion hs => exact (if_pos hs).symm
  | badLength hh hb =>
    rw [if_neg (Nat.not_lt.2 hh.region)]
    exact (if_pos hb).symm
  | verdict hb =>
    rw [if_neg (Nat.not_lt.2 hb.region)]
    exact (if_neg hb.legal).symm

/-- Settles O22: the way VALIDATE ends depends on the region registers, the storage and the platform,
and VALIDATE changes none of them. -/
theorem validateRepeatsItself : Obligations.ValidateRepeatsItself := by
  intro s t ht
  cases execValidate_eq_next_iff.1 ht with
  | smallRegion hs => exact ⟨[], rfl, execValidate_eq_next_iff.2 (.smallRegion hs)⟩
  | badLength hh hb =>
    exact ⟨_, rfl, execValidate_eq_next_iff.2 (.badLength ⟨hh.region, hh.length, hh.answers⟩ hb)⟩
  | @verdict h bs c hb =>
    have hagain := execValidate_eq_next_iff.2 (.verdict
      (s := ((summed s h bs c).withVresult (summed s h bs c).verdict).complete .none)
      ⟨⟨hb.region, hb.length, hb.answers⟩, hb.legal, hb.covered_length, hb.covered, hb.checksum_length,
        hb.checksum⟩)
    refine ⟨(blockReads s h bs c).reverse, congrArg State.history (summed_eq s h bs c), ?_⟩
    rw [summed_eq (State.complete _ _)] at hagain
    exact hagain

/-! ### One byte changed (R127, R148) -/

/-- The header's length is in its bytes 3 and 4 alone (R65). -/
theorem headerLength_set {h : List Byte} {k : Nat} (v : Byte) (hh : h.length = 5) (h3 : k ≠ 3)
    (h4 : k ≠ 4) : headerLength (h.set k v) = headerLength h := by
  rw [headerLength, headerLength]
  by_cases hk : k < 3
  · rw [List.drop_set_of_lt hk]
  · rw [List.set_eq_of_length_le (by omega)]

theorem BlockRead.header_eq {s : State} {h bs c : List Byte} (hb : BlockRead s h bs c) :
    h = bs.take 5 := by
  refine answers_unique hb.answers (answers_take 5 hb.covered) ?_
  have := hb.nine_le
  rw [List.length_take, hb.covered_length, hb.length]
  omega

/-- A block with one covered byte changed, not one of the length's, is the block with that byte in its
place. -/
theorem BlockRead.put {s : State} {h bs c : List Byte} {k : Nat} (v : Byte) (hb : BlockRead s h bs c)
    (hk : k < bs.length) (h3 : k ≠ 3) (h4 : k ≠ 4) :
    BlockRead { s with storage := s.storage.put (s.regionBase + BitVec.ofNat 32 k).toNat v }
      (h.set k v) (bs.set k v) c := by
  have hlen : headerLength (h.set k v) = headerLength h := headerLength_set v hb.length h3 h4
  have hset : (bs.set k v).length = headerLength (h.set k v) - 4 := by
    rw [List.length_set, hlen, hb.covered_length]
  have hmax : headerLength h < 2 ^ 16 := (leHalf (h.drop 3)).isLt
  have hwhole := answers_put (v := v) (k := k)
    ((answers_append _ _ _ _).2 ⟨hb.covered, checksumAddr_eq hb.covered_length ▸ hb.checksum⟩)
    (by rw [List.length_append]; omega)
    (by rw [List.length_append, hb.covered_length, hb.checksum_length]; omega)
  rw [List.set_append_left _ _ hk] at hwhole
  obtain ⟨hcov, hsum⟩ := (answers_append _ _ _ _).1 hwhole
  refine ⟨⟨hb.region, by rw [List.length_set, hb.length], ?_⟩, ?_, hset, hcov, hb.checksum_length, ?_⟩
  · rw [hb.header_eq, ← List.take_set]
    exact answers_take 5 hcov
  · rw [HeaderBad, hlen]
    exact hb.legal
  · rw [checksumAddr_eq hset]
    exact hsum

/-- Changing one byte of a sequence changes its CRC (R127). -/
theorem crcOf_set_ne {bs : List Byte} {k : Nat} {b v : Byte} (hb : bs[k]? = some b) (hv : v ≠ b) :
    crcOf (bs.set k v) ≠ crcOf bs := by
  obtain ⟨hk, rfl⟩ := List.getElem?_eq_some_iff.1 hb
  rw [List.set_eq_take_append_cons_drop, if_pos hk]
  conv_rhs => rw [← List.take_append_drop k bs, List.drop_eq_getElem_cons hk]
  exact crcDetectsAnyOneByteChange.2.2 _ _ _ _ hv

/-- Settles O23: the changed block is read as before, and its CRC is another. -/
theorem corruptedByteIsAChecksumMismatch : Obligations.CorruptedByteIsAChecksumMismatch := by
  intro s t k b v ht hok hk h3 h4 hget hv
  cases execValidate_eq_next_iff.1 ht with
  | smallRegion hs => cases hok
  | badLength hh hb => cases hok
  | @verdict h bs c hb =>
    have hkb : k < bs.length := hb.covered_length ▸ hk
    have hbk : bs[k]? = some b := by
      rw [List.getElem?_eq_getElem hkb]
      exact (hb.covered k _ (List.getElem?_eq_getElem hkb)).symm.trans hget
    have hne := crcOf_set_ne hbk hv
    have heq : crcOf bs = leWord c := ((State.verdict_ok_iff _).1 hok).1
    refine ⟨_, execValidate_eq_next_iff.2 (.verdict (hb.put v hkb h3 h4)), ?_, rfl, hne⟩
    exact (State.verdict_checksumMismatch_iff _).2 fun he => hne (he.trans heq.symm)

/-! ### A block assembled, validated and read back (R150, R172) -/

/-- READ_FIELD where the storage answers the bytes and the destination accepts them (R172). -/
theorem execReadField_copies {s : State} {bs : List Byte} (hv : s.vresult = .ok)
    (hb : s.argOffset.toNat + s.argSize.toNat + 9 ≤ s.hdrLen.toNat) (hl : bs.length = s.argSize.toNat)
    (ha : Answers s.storage (fieldStart s) bs) (hd : Accepts s s.argDest bs.length) :
    execReadField s = .next ((copied s (fieldStart s) s.argDest bs).complete .none) := by
  have hr := execReadField_run s
  generalize execReadField s = r at hr ⊢
  cases hr with
  | notValidated hne => exact absurd hv hne
  | outOfBounds _ hlt => omega
  | stuckReading cs _ _ hcs _ _ hn => exact absurd hn (answers_not_silent ha (hl ▸ hcs))
  | stuckWriting cs c _ _ hcs _ _ hn =>
    have := accepts_le_of_blocked hd (.inl hn)
    omega
  | overlaps cs c _ _ hcs _ _ _ ho =>
    have := accepts_le_of_blocked hd (.inr ho)
    omega
  | copies cs _ _ hcs hc =>
    rw [answers_unique hc ha (hcs.trans hl.symm)]
    rfl

/-- READ_FIELD of offset 0 and the field data's size delivers the whole field data (R172). -/
theorem execReadField_whole {t : State} {field : List Byte} {d : Addr} (hv : t.vresult = .ok)
    (hl : t.hdrLen.toNat = field.length + 9)
    (ha : Answers t.storage (t.regionBase + BitVec.ofNat 32 5) field)
    (hd : Accepts t d field.length) :
    ∃ u, execReadField
        { t with argOffset := 0, argSize := BitVec.ofNat 16 field.length, argDest := d } = .next u ∧
      u.cerr = .none ∧
      ∀ i b, field[i]? = some b → u.dest.get (d + BitVec.ofNat 32 i).toNat = some b := by
  have hmax := t.hdrLen.isLt
  have hsize : (BitVec.ofNat 16 field.length).toNat = field.length := Nat.mod_eq_of_lt (by omega)
  refine ⟨_, execReadField_copies (bs := field) hv ?_ hsize.symm ha hd, rfl, ?_⟩
  · change 0 + (BitVec.ofNat 16 field.length).toNat + 9 ≤ t.hdrLen.toNat
    omega
  · exact (get_putBytes field t.dest d (by omega)).1

/-- The bytes of a word, the lowest first (R14). -/
def wordBytes (w : Word) : List Byte :=
  [w.extractLsb' 0 8, w.extractLsb' 8 8, w.extractLsb' 16 8, w.extractLsb' 24 8]

theorem leWord_wordBytes (w : Word) : leWord (wordBytes w) = w :=
  (leWord_four ..).trans (bytes_append w)

/-- A block that ends with its own CRC and begins with the sentinel is accepted (R148 to R150). -/
theorem execValidate_of_crc {s : State} {h bs : List Byte}
    (hb : BlockRead s h bs (wordBytes (crcOf bs))) (ht : h.getD 0 0 = s.platform.tagSentinel) :
    ∃ t, execValidate s = .next t ∧ t.vresult = .ok ∧ t.hdrLen.toNat = headerLength h :=
  ⟨_, execValidate_eq_next_iff.2 (.verdict hb),
    (State.verdict_ok_iff _).2 ⟨(leWord_wordBytes (crcOf bs)).symm, ht⟩, rfl⟩

/-- Settles O24: the assembled block is accepted, and READ_FIELD then delivers its field data. -/
theorem assembledBlockValidatesAndReadsBack : Obligations.AssembledBlockValidatesAndReadsBack := by
  intro s tag major minor l0 l1 field d htag hl hs ha hd
  rw [← headerLength_five tag major minor l0 l1] at hl
  have hb : BlockRead s [tag, major, minor, l0, l1] ([tag, major, minor, l0, l1] ++ field)
      (wordBytes (crcOf ([tag, major, minor, l0, l1] ++ field))) :=
    blockRead_of_answers rfl rfl hl hs ha
  obtain ⟨t, ht, hok, hlen⟩ := execValidate_of_crc hb htag
  have hf := (execValidate_frame (.inl ht)).1
  have hfield : Answers t.storage (t.regionBase + BitVec.ofNat 32 5) field := by
    rw [hf.storage, hf.regionBase]
    exact ((answers_append _ _ _ _).1 hb.covered).2
  have hdest := (accepts_congr hf.storage hf.platform hf.regionBase hf.regionSize).2 hd
  obtain ⟨u, hu⟩ := execReadField_whole hok (hlen.trans hl) hfield hdest
  exact ⟨t, u, ht, hok, hu⟩

end Sys2Proof.Machine
end

section
/-! SUPPORT. The proofs of the statements about the field commands (42_field_access.md).  The four commands
make the same two checks with different sizes (`fieldChecked`), so a failed check is treated once for all of
them; what READ_FIELD and READ_SCALAR do after the checks is the matching case of `FieldRun` or
`ScalarRun`. -/

namespace Sys2Proof.Machine
open Sys2Proof

/-! ### The checks of R177 -/

/-- The checks of a field request of `n` bytes, in the order of R177, before the outcome `r` of the rest of
the command. -/
def fieldChecked (n : Nat) (s : State) (r : Result) : Result :=
  if s.valid = false then finish .notValidated s
  else if s.inBounds s.argOff n = false then finish .outOfBounds s
  else r

theorem fieldChecked_notValidated {n : Nat} {s : State} (r : Result) (hv : s.vresult ≠ .ok) :
    fieldChecked n s r = finish .notValidated s :=
  if_pos (Bool.eq_false_iff.2 (mt s.valid_iff.1 hv))

theorem fieldChecked_outOfBounds {n : Nat} {s : State} (r : Result) (hv : s.vresult = .ok)
    (hb : s.hdrLen.toNat < s.argOffset.toNat + n + 9) :
    fieldChecked n s r = finish .outOfBounds s := by
  have hvalid : s.valid ≠ false := ne_false_of_eq_true (s.valid_iff.2 hv)
  have hbound : s.inBounds s.argOff n = false :=
    Bool.eq_false_iff.2 (mt (s.inBounds_iff s.argOff n).1 (Nat.not_le.2 hb))
  exact (if_neg hvalid).trans (if_pos hbound)

/-- The field commands, each with the size it requests (R171). -/
def fieldRequests (s : State) : List (Instr × Nat) :=
  [(.readField, s.argSize.toNat), (.readScalarB, 1), (.readScalarH, 2), (.readScalarW, 4)]

/-- Every field command begins with the checks of R177 on the size it requests. -/
theorem exec_fieldChecked {s : State} {p : Instr × Nat} (hp : p ∈ fieldRequests s) :
    ∃ r, exec p.1 s = fieldChecked p.2 s r := by
  simp only [fieldRequests, List.mem_cons, List.not_mem_nil, or_false] at hp
  rcases hp with rfl | rfl | rfl | rfl <;> exact ⟨_, rfl⟩

/-- Settles O25: the first check of R177 fails in each field command. -/
theorem fieldCommandsNeedAValidatedView : Obligations.FieldCommandsNeedAValidatedView := by
  intro s hv i hi
  obtain ⟨p, hp, rfl⟩ : ∃ p ∈ fieldRequests s, p.1 = i := List.mem_map.1 hi
  obtain ⟨r, hr⟩ := exec_fieldChecked hp
  exact hr.trans (fieldChecked_notValidated r hv)

/-- Settles O26: the first check of R177 passes and the second fails in each field command. -/
theorem fieldCommandsRespectTheBound : Obligations.FieldCommandsRespectTheBound := by
  intro s hv p hp hb
  obtain ⟨r, hr⟩ := exec_fieldChecked hp
  exact hr.trans (fieldChecked_outOfBounds r hv (by omega))

/-! ### READ_FIELD (R172, R178, R179) -/

/-- A request has fewer bytes than there are addresses, so no byte of it falls on another (R37, R73). -/
theorem length_le_of_size {size : Half} {bs : List Byte} (h : bs.length ≤ size.toNat) :
    bs.length ≤ 2 ^ 32 := by
  have := size.isLt
  omega

/-- Settles O27: the copy of `execReadField_copies`, whose bytes in the destination are those of
`get_putBytes`. -/
theorem readFieldCopiesTheBytes : Obligations.ReadFieldCopiesTheBytes := by
  intro s bs hv hl hb ha hd
  exact ⟨_, execReadField_copies hv hb hl ha hd,
    get_putBytes bs s.dest s.argDest (length_le_of_size hl.le)⟩

/-- Settles O28: READ_FIELD of no byte is the copy of the empty sequence, or a request out of bounds. -/
theorem readFieldOfSizeZero : Obligations.ReadFieldOfSizeZero := by
  intro s hv hz
  have hsize : s.argSize.toNat = 0 := congrArg BitVec.toNat hz
  constructor
  · intro hle
    exact execReadField_copies (bs := []) hv (by omega) hsize.symm (answers_nil _ _) (accepts_zero _ _)
  · intro hlt
    exact fieldCommandsRespectTheBound s hv (.readField, s.argSize.toNat) List.mem_cons_self
      (by simpa [hsize] using hlt)

/-- READ_FIELD is stuck at the first destination address that is not admitted, if it can read the byte for
it and write the bytes before it; that read is recorded. -/
theorem execReadField_stuckWriting {s : State} {bs : List Byte} {b : Byte} (hv : s.vresult = .ok)
    (hb : s.argOffset.toNat + s.argSize.toNat + 9 ≤ s.hdrLen.toNat) (hl : bs.length < s.argSize.toNat)
    (ha : Answers s.storage (fieldStart s) (bs ++ [b])) (hd : Accepts s s.argDest bs.length)
    (hadm : s.destAdmits (s.argDest + BitVec.ofNat 32 bs.length) = false) :
    execReadField s = .fault (.destStuck (s.argDest + BitVec.ofNat 32 bs.length)
      ((copied s (fieldStart s) s.argDest bs).log
        (.storageRead (fieldStart s + BitVec.ofNat 32 bs.length) b))) := by
  have hr := execReadField_run s
  generalize execReadField s = r at hr ⊢
  cases hr with
  | notValidated hne => exact absurd hv hne
  | outOfBounds _ hlt => omega
  | stuckReading cs _ _ _ hc hdc hn =>
    have hread := SilentAfter.length_le ⟨hc, hn⟩ ha
    have hwrite := accepts_le_of_blocked hdc (.inl hadm)
    rw [List.length_append, List.length_singleton] at hread
    omega
  | stuckWriting cs c _ _ _ hc hdc hn =>
    have hlen : cs.length = bs.length :=
      Nat.le_antisymm (accepts_le_of_blocked hdc (.inl hadm)) (accepts_le_of_blocked hd (.inl hn))
    have hbytes : cs ++ [c] = bs ++ [b] := answers_unique hc ha (by simp [hlen])
    obtain ⟨rfl, rfl⟩ := List.append_singleton_inj.1 hbytes
    rfl
  | overlaps cs c _ _ _ _ hdc hn ho =>
    have hlen : cs.length = bs.length :=
      Nat.le_antisymm (accepts_le_of_blocked hdc (.inl hadm)) (accepts_le_of_blocked hd (.inr ho))
    rw [hlen, hadm] at hn
    cases hn
  | copies cs _ _ hcs _ hdc =>
    have := accepts_le_of_blocked hdc (.inl hadm)
    omega

/-- Settles O29: the state reached by `execReadField_stuckWriting` has the earlier bytes written. -/
theorem readFieldIsStuckAtARefusedDestination : Obligations.ReadFieldIsStuckAtARefusedDestination := by
  intro s bs b hv hl hb ha hd hadm
  exact ⟨_, _, execReadField_stuckWriting hv hb hl ha hd hadm,
    get_putBytes bs s.dest s.argDest (length_le_of_size hl.le)⟩

/-! ### READ_SCALAR (R173 to R176) -/

/-- READ_SCALAR where the storage answers the bytes: their little-endian value goes into RDATA (R173). -/
theorem readScalar_value {s : State} {bs : List Byte} (hv : s.vresult = .ok)
    (hb : s.argOffset.toNat + bs.length + 9 ≤ s.hdrLen.toNat)
    (ha : Answers s.storage (fieldStart s) bs) :
    readScalar bs.length s =
      finish .none ((withEvents s (readEvents (fieldStart s) bs)).withRdata (leWord bs)) := by
  have hr := readScalar_run bs.length s
  generalize readScalar bs.length s = r at hr ⊢
  cases hr with
  | notValidated hne => exact absurd hv hne
  | outOfBounds _ hlt => omega
  | stuck cs _ _ hl _ hn => exact absurd hn (answers_not_silent ha hl)
  | value cs _ _ hl hc => rw [answers_unique hc ha hl]

/-- Settles O31: `readScalar_value` at one, two and four bytes. -/
theorem readScalarValues : Obligations.ReadScalarValues := by
  intro s b0 b1 b2 b3 hv
  refine ⟨fun hb ha => ?_, fun hb ha => ?_, fun hb ha => ?_⟩
  · rw [← leWord_one]
    exact readScalar_value (bs := [b0]) hv hb ha
  · rw [← leWord_two]
    exact readScalar_value (bs := [b0, b1]) hv hb ha
  · rw [← leWord_four]
    exact readScalar_value (bs := [b0, b1, b2, b3]) hv hb ha

end Sys2Proof.Machine
end

section
/-! SUPPORT. The proofs of the statements about the register port (43_register_access.md).  The rows of a
statement are those of a list of registers or offsets, and what `exec` does for a row is said once for all
registers and once for both reserved offsets; what a step does with the host's next access follows from the
three answers of the decoder. -/

namespace Sys2Proof.Machine
open Sys2Proof

/-! ### Command issue (R195, R196) -/

/-- Settles O5: ILLEGAL_CMD finishes with its code. -/
theorem illegalCommandCompletes : Obligations.IllegalCommandCompletes :=
  ⟨rfl, fun w => exec_toInstr (.illegal w)⟩

/-- Settles O39: the command that a CMD write issues is the instruction its word decodes to. -/
theorem cmdWriteIssuesTheCommand : Obligations.CmdWriteIssuesTheCommand :=
  fun w s => (execWrCmd_eq w s).trans (exec_toInstr (decodeCommand w) _).symm

/-! ### Mapped registers (R191, R193, R194) -/

theorem exec_rdInstr (r : Reg) (s : State) : exec r.rdInstr s = portRead r s := by
  cases r <;> rfl

theorem exec_wrInstr {r : Reg} (hr : r ≠ .cmd) (v : Word) (s : State) :
    exec (r.wrInstr v) s = portWrite r v s := by
  cases r with
  | cmd => exact absurd rfl hr
  | _ => rfl

/-- A 16-bit register reads with its reserved bits as 0 (R33, R36, R37). -/
theorem half_setWidth (h : Half) : h.setWidth 32 = 0#16 ++ h := BitVec.setWidth_eq_append (by decide)

/-- The read of a register: its instruction, the offset it is recorded at and the value it gives. -/
def readRow (s : State) (r : Reg) : Instr × Nat × Word := (r.rdInstr, r.offset, s.readReg r)

/-- Settles O36: the rows are the reads of the fourteen registers. -/
theorem registerReadsReturnTheValue : Obligations.RegisterReadsReturnTheValue := by
  intro s
  simp only [← half_setWidth]
  intro row hrow
  obtain ⟨r, -, rfl⟩ := List.mem_map.1 (show row ∈ Reg.all.map (readRow s) from hrow)
  exact exec_rdInstr r s

/-- Settles O37, register by register; the 16-bit registers keep the low bits. -/
theorem registerWritesTakeTheValue : Obligations.RegisterWritesTakeTheValue := by
  intro s v
  rw [← BitVec.setWidth_eq_extractLsb' (by decide)]
  exact ⟨exec_wrInstr (r := .regionBase) (by decide) v s, exec_wrInstr (r := .regionSize) (by decide) v s,
    exec_wrInstr (r := .argOffset) (by decide) v s, exec_wrInstr (r := .argSize) (by decide) v s,
    exec_wrInstr (r := .argDest) (by decide) v s⟩

/-- The read-only registers (R194). -/
def readOnlyRegs : List Reg :=
  [.status, .crcState, .crcResult, .hdrId, .hdrLen, .expected, .computed, .rdata]

theorem writeReg_of_readOnly {r : Reg} (hr : r ∈ readOnlyRegs) (s : State) (v : Word) :
    s.writeReg v r = s := by
  cases r with
  | regionBase | regionSize | argOffset | argSize | argDest => exact absurd hr (by decide)
  | _ => rfl

/-- Settles O38: the rows are the writes of the read-only registers, which leave the registers alone. -/
theorem readOnlyWritesAreIgnored : Obligations.ReadOnlyWritesAreIgnored := by
  intro s v row hrow
  obtain ⟨r, hr, rfl⟩ :=
    List.mem_map.1 (show row ∈ readOnlyRegs.map fun r => (r.wrInstr v, r.offset) from hrow)
  have hcmd : r ≠ .cmd := by rintro rfl; exact absurd hr (by decide)
  rw [exec_wrInstr hcmd, portWrite, writeReg_of_readOnly hr]
  rfl

/-! ### Reserved offsets (R192) -/

/-- The reserved offsets of the window (R23, R192). -/
def reservedOffsets : List Nat := [0x38, 0x3C]

theorem exec_reserved {off : Nat} (h : off ∈ reservedOffsets) (op : Transfer) (s : State) :
    exec (windowInstr off op) s = busError off op s := by
  simp only [reservedOffsets, List.mem_cons, List.not_mem_nil, or_false] at h
  rcases h with rfl | rfl <;> cases op <;> rfl

/-- Settles O41: the rows are the reads and the writes of the reserved offsets, which answer SLVERR. -/
theorem reservedOffsetsAnswerSlverr : Obligations.ReservedOffsetsAnswerSlverr := by
  refine fun s => ⟨fun row hrow => ?_, fun v row hrow => ?_⟩
  · obtain ⟨off, hoff, rfl⟩ := List.mem_map.1
      (show row ∈ reservedOffsets.map fun off => (windowInstr off .read, off) from hrow)
    exact ⟨_, exec_reserved hoff .read s⟩
  · obtain ⟨off, hoff, rfl⟩ := List.mem_map.1
      (show row ∈ reservedOffsets.map fun off => (windowInstr off (.write v), off) from hrow)
    exact exec_reserved hoff (.write v) s

/-! ### One access, and the step that serves it (R190, R192, R242) -/

theorem serveAccess_of_instr {a : Access} {s : State} {i : Instr}
    (h : decodeAccess s.platform.regBase a = .instr i) : serveAccess a s = exec i s := by
  rw [serveAccess, h]

theorem serveAccess_of_notSelected {a : Access} {s : State}
    (h : decodeAccess s.platform.regBase a = .notSelected) : serveAccess a s = .next s := by
  rw [serveAccess, h]

/-- A bad width and a misaligned offset are both answered with SLVERR (R192). -/
theorem serveAccess_of_bad {a : Access} {s : State}
    (hin : windowOffset s.platform.regBase a.addr < 0x40)
    (hbad : a.width ≠ 32 ∨ windowOffset s.platform.regBase a.addr % 4 ≠ 0) :
    serveAccess a s = busError (windowOffset s.platform.regBase a.addr) a.op s := by
  rw [serveAccess, decodeAccess_inside hin]
  by_cases hw : a.width = 32
  · rw [if_neg (not_not.2 hw), if_pos (hbad.resolve_left (not_not.2 hw))]
  · rw [if_pos hw]

theorem step_of_idle {s : State} (h : s.pending = []) : step s = .next s := by
  rw [step, h]

theorem step_of_access {s : State} {a : Access} {rest : List HostEvent}
    (h : s.pending = .access a :: rest) : step s = serveAccess a { s with pending := rest } := by
  simp only [step, h, serve]

/-- Settles O42: such an access is served with SLVERR in its direction. -/
theorem narrowOrMisalignedAccessAnswersSlverr : Obligations.NarrowOrMisalignedAccessAnswersSlverr := by
  intro s a rest hp hin hbad
  have hstep := (step_of_access hp).trans
    (serveAccess_of_bad (s := { s with pending := rest }) hin hbad)
  constructor
  · intro hop
    rw [hop] at hstep
    exact ⟨_, hstep⟩
  · intro v hop
    rw [hop] at hstep
    exact hstep

/-- Settles O48, by what is served: an access of an instruction, one outside the window, nothing. -/
theorem stepRunsTheDecodedInstruction : Obligations.StepRunsTheDecodedInstruction := fun _ =>
  ⟨fun _ _ _ hp hd => (step_of_access hp).trans (serveAccess_of_instr hd),
    fun _ _ hp hd => (step_of_access hp).trans (serveAccess_of_notSelected hd), step_of_idle⟩

/-! ### Table words (R100, R195; log 2) -/

theorem step_withFetchWord (s : State) (nbits w : Nat) :
    step (s.withFetchWord nbits w) =
      serveAccess ((tableIssue s.platform.regBase nbits w).toAccess s.platform.regBase) s :=
  step_of_access rfl

/-- Where the window stands does not matter to the decoding of an access given by its offset (R23). -/
theorem decodeAccess_rebase (base base' : Addr) {off : Nat} (h : off < 2 ^ 32) (width : Nat)
    (op : Transfer) :
    decodeAccess base { addr := base + BitVec.ofNat 32 off, width := width, op := op } =
      decodeAccess base' { addr := base' + BitVec.ofNat 32 off, width := width, op := op } := by
  simp only [decodeAccess, windowOffset_add _ off h]

theorem decodeAccess_tableAccess (base base' : Addr) (w : Nat) :
    decodeAccess base (tableAccess base w) = decodeAccess base' (tableAccess base' w) := by
  have hoff : w % 64 < 2 ^ 32 := by omega
  unfold tableAccess
  split <;> exact decodeAccess_rebase base base' hoff _ _

theorem decodeTableWord_eq_some_iff (nbits w : Nat) (i : Instr) :
    decodeTableWord nbits w = some i ↔ decode 0 (tableIssue 0 nbits w) = .instr i := by
  unfold decodeTableWord
  cases decode 0 (tableIssue 0 nbits w) <;> simp

/-- Settles O49: a command word is the write to offset 0, and a register row's access decodes at the
window's own base as it does at base 0. -/
theorem fetchWordRunsItsInstruction : Obligations.FetchWordRunsItsInstruction := by
  refine fun s => ⟨fun w => ?_, fun w i hi => ?_⟩
  · have hissue : tableIssue s.platform.regBase 32 w.toNat = .command w := by simp [tableIssue]
    rw [step_withFetchWord, hissue]
    exact serveAccess_of_instr (decodeAccess_legal _ 0x00 (.write w) (by decide) rfl)
  · rw [step_withFetchWord]
    exact serveAccess_of_instr ((decodeAccess_tableAccess _ 0 w).trans
      ((decodeTableWord_eq_some_iff 8 w i).1 hi))

end Sys2Proof.Machine
end

section
/-! SUPPORT. The proofs of the statements about reset and hazards (70_reset_and_hazards.md).  A reset in the
middle of a command keeps a beginning of the accesses the command adds to the history (`abortAfter_eq`), so
what `execCommand_history` says of those accesses settles both statements about it.  That commands finish
rests on `execCommand_outcome`: a command can fail only at an address it may access. -/

namespace Sys2Proof.Machine
open Sys2Proof

/-! ### The values after reset (R240) -/

/-- Every register reads its reset value after a hardware reset (R240). -/
theorem readReg_hardwareReset (s : State) (r : Reg) :
    s.hardwareReset.readReg r = if r = .crcState then 0xFFFFFFFF else 0x00000000 := by
  cases r with
  | status =>
    exact (by decide : 0#25 ++ CErr.none.code ++ BitVec.ofBool false ++ VResult.none.code = (0 : Word))
  | crcResult => exact (by decide : ~~~ Config.crcInit = 0)
  | hdrId => exact (by decide : HdrId.word { tag := 0, major := 0, minor := 0 } = 0)
  | _ => rfl

/-- At the start of a run the registers hold what a hardware reset sets them to. -/
theorem hardwareReset_resetOn (p : Platform) (m : Memory) :
    (State.resetOn p m).hardwareReset = State.resetOn p m := rfl

/-- Settles O45: the reset state is its own hardware reset, so one table serves both parts. -/
theorem resetValues : Obligations.ResetValues :=
  ⟨fun p m => ⟨hardwareReset_resetOn p m ▸ readReg_hardwareReset _, rfl, rfl, rfl, rfl⟩,
    fun s => ⟨readReg_hardwareReset s, rfl, rfl, rfl, rfl⟩⟩

theorem consistent_resetOn (p : Platform) {m : Memory} (hm : m.wf) : Consistent (State.resetOn p m) where
  storage_wf := hm
  dest_wf := Memory.wf_nil
  view := viewConsistent_hardwareReset (State.resetOn p m)
  history := List.forall_mem_nil _

/-- Settles O44: `State.reset` is the case of an empty storage. -/
theorem resetIsConsistent : Obligations.ResetIsConsistent :=
  ⟨consistent_resetOn _ Memory.wf_nil, fun p _ => consistent_resetOn p⟩

/-! ### The step that serves a reset (R240, R241) -/

theorem step_of_reset {s : State} {rest : List HostEvent} (h : s.pending = .reset :: rest) :
    step s = .next (State.hardwareReset { s with pending := rest }) := by
  simp only [step, h, serve]

theorem step_of_resetDuring {s : State} {w : Word} {k : Nat} {rest : List HostEvent}
    (h : s.pending = .resetDuring w k :: rest) :
    step s = serveResetDuring w k { s with pending := rest } := by
  simp only [step, h, serve]

/-- Settles O46: the step is the hardware reset, written out. -/
theorem hardwareResetStep : Obligations.HardwareResetStep := fun _ _ hp => step_of_reset hp

/-! ### A command cut off by a reset (R241) -/

/-- A command that has added the events `es`, cut off after `k` of them: those are recorded, their writes are
done, and the rest is a hardware reset. -/
theorem abortAfter_eq {s t : State} {es : List Event} (k : Nat)
    (h : t.history = es.reverse ++ s.history) : abortAfter k s t = State.hardwareReset
      { s with
        dest := replayWrites (es.take k) s.dest
        history := (es.take k).reverse ++ s.history } := by
  rw [abortAfter, eventsSince_of_history h, List.reverse_reverse]

/-- Settles O57, by the two things a reset during a CMD write can do. -/
theorem resetDuringAnyCommandAbortsIt : Obligations.ResetDuringAnyCommandAbortsIt := by
  intro s w k rest hp
  rw [step_of_resetDuring hp]
  rcases serveResetDuring_cases w k { s with pending := rest } with ⟨u, hu, he⟩ | ⟨q, hq, hs, he⟩
  · rw [he]
    obtain ⟨es, hh, -⟩ := execCommand_history (c := decodeCommand w) hu
    rw [← List.reverse_reverse es] at hh
    refine ⟨fun t ht => ?_, fun f hf => (by cases hf), fun q hq => (by cases hq), fun _ => ⟨_, rfl⟩⟩
    cases ht
    exact ⟨readReg_hardwareReset _, u, es.reverse, hu, hh, abortAfter_eq k hh⟩
  · rw [he]
    refine ⟨fun t ht => (by cases ht), fun f hf => (by cases hf), fun p hp => ?_, fun hn => ?_⟩
    · cases hp
      exact hq
    · cases hn.symm.trans hs

/-- A reset during a CMD write that would finish cuts it off after `k` accesses. -/
theorem serveResetDuring_of_next {w : Word} {s u : State} (k : Nat) (h : exec (.wrCmd w) s = .next u) :
    serveResetDuring w k s = .next (abortAfter k (s.log (.regWrite 0x00 w)) u) := by
  rcases serveResetDuring_cases w k s with ⟨v, hv, he⟩ | ⟨q, hq, -, -⟩
  · rw [h, reaches_next] at hv
    rwa [hv] at he
  · cases h.symm.trans hq

/-- A READ_FIELD that would copy its bytes, cut off after `k` accesses: half of those are writes, of the first
bytes. -/
theorem serveResetDuring_readField {s : State} {bs : List Byte} (k : Nat) (hv : s.vresult = .ok)
    (hb : s.argOffset.toNat + s.argSize.toNat + 9 ≤ s.hdrLen.toNat) (hl : bs.length = s.argSize.toNat)
    (ha : Answers s.storage (fieldStart s) bs) (hd : Accepts s s.argDest bs.length) :
    serveResetDuring 0x00000005 k s = .next (State.hardwareReset
      { s with
        dest := s.dest.putBytes s.argDest (bs.take (k / 2))
        history := ((copyEvents (fieldStart s) s.argDest bs).take k).reverse ++
          .regWrite 0x00 0x00000005 :: s.history }) := by
  have hcopy := execReadField_copies (s := s.log (.regWrite 0x00 0x00000005)) hv hb hl ha hd
  rw [serveResetDuring_of_next (w := 0x00000005) k hcopy,
    abortAfter_eq k (es := copyEvents (fieldStart s) s.argDest bs), replayWrites_take_copyEvents]
  · rfl
  · exact copied_history _ _ _ bs

/-- Settles O47: of the copy cut short, the bytes in the destination are those of `get_putBytes`. -/
theorem resetDuringReadFieldKeepsWrittenBytes : Obligations.ResetDuringReadFieldKeepsWrittenBytes := by
  intro s rest bs k hp hv hl hb ha hd
  have hstep := (step_of_resetDuring hp).trans
    (serveResetDuring_readField (s := { s with pending := rest }) k hv hb hl ha hd)
  have hlen : (bs.take (k / 2)).length ≤ 2 ^ 32 :=
    (List.length_take_le' _ _).trans (length_le_of_size hl.le)
  obtain ⟨hwritten, hother⟩ := get_putBytes (bs.take (k / 2)) s.dest s.argDest hlen
  refine ⟨_, hstep, readReg_hardwareReset _, rfl, rfl, rfl, rfl, rfl, fun i b hi hget => ?_,
    fun x hx => hother x fun i hi => ?_⟩
  · exact hwritten i b ((List.getElem?_take_of_lt hi).trans hget)
  · rw [List.length_take, Nat.lt_min] at hi
    exact hx i hi.1 hi.2

/-! ### The addresses a command may access (R13, R75) -/

/-- A storage address that a command could read in `s`: VALIDATE below REGION_SIZE, the field commands
inside the validated block. -/
def MayRead (s : State) (a : Addr) : Prop :=
  ∃ k, a = s.blockAddr k ∧ (k < s.regionSize.toNat ∧ k < 2 ^ 16 ∨ k < s.hdrLen.toNat)

/-- A destination address that READ_FIELD could write in `s`. -/
def MayWrite (s : State) (a : Addr) : Prop :=
  ∃ i, i < s.argSize.toNat ∧ a = s.argDest + BitVec.ofNat 32 i

theorem not_silent_of_mayRead {s : State} {a : Addr} (h : AccessesAdmitted s) (ha : MayRead s a) :
    s.storage.get a.toNat ≠ none := by
  obtain ⟨hregion, hblock, -⟩ := h
  obtain ⟨k, rfl, ⟨hk, hmax⟩ | hk⟩ := ha
  · exact Option.isSome_iff_ne_none.1 (hregion k hk hmax)
  · exact Option.isSome_iff_ne_none.1 (hblock k hk)

theorem writable_of_mayWrite {s : State} {a : Addr} (h : AccessesAdmitted s) (ha : MayWrite s a) :
    s.destAdmits a = true ∧ s.hitsStorage a = false := by
  obtain ⟨-, -, hdest⟩ := h
  obtain ⟨i, hi, rfl⟩ := ha
  exact hdest i hi

theorem mayRead_of_lt_regionSize {s : State} {k : Nat} (hs : k < s.regionSize.toNat) (hk : k < 2 ^ 16) :
    MayRead s (s.blockAddr k) := ⟨k, rfl, .inl ⟨hs, hk⟩⟩

/-- VALIDATE's addresses: a header length that is not refused lies in the region (R145, R146, R147). -/
theorem mayRead_of_lt_headerLength {s : State} {h : List Byte} {k : Nat} (hb : ¬ HeaderBad s h)
    (hk : k < headerLength h) : MayRead s (s.blockAddr k) := by
  have hregion := (not_headerBad_iff.1 hb).2
  have hmax : headerLength h < 2 ^ 16 := (leHalf (h.drop 3)).isLt
  exact mayRead_of_lt_regionSize (by omega) (by omega)

/-- The field commands' addresses: those of the bytes of a request that is in bounds (R171). -/
theorem mayRead_fieldStart {s : State} {n i : Nat} (hb : s.argOffset.toNat + n + 9 ≤ s.hdrLen.toNat)
    (hi : i < n) : MayRead s (fieldStart s + BitVec.ofNat 32 i) :=
  ⟨5 + s.argOffset.toNat + i, addr_add _ _ _, .inr (by omega)⟩

/-! ### How a command ends (R70, R179, R255, R259) -/

/-- The outcomes of a command in `s`: it finishes, or it fails at an address it may access. -/
inductive CommandOutcome (s : State) : Result → Prop where
  | finished (t : State) : CommandOutcome s (.next t)
  | stuckReading {a : Addr} (t : State) (ha : MayRead s a) (hn : s.storage.get a.toNat = none) :
      CommandOutcome s (.fault (.storageStuck a t))
  | stuckWriting {a : Addr} (t : State) (ha : MayWrite s a) (hn : s.destAdmits a = false) :
      CommandOutcome s (.fault (.destStuck a t))
  | overlaps {a : Addr} (t : State) (ha : MayWrite s a) (ho : s.hitsStorage a = true) :
      CommandOutcome s (.refused (.destOverlapsStorage a t))

theorem execValidate_outcome (s : State) : CommandOutcome s (execValidate s) := by
  have hr := execValidate_run s
  generalize execValidate s = r at hr ⊢
  cases hr with
  | smallRegion | badLength | verdict => exact .finished _
  | stuckInHeader bs hs hl _ hn => exact .stuckReading _ (mayRead_of_lt_regionSize (by omega) (by omega)) hn
  | stuckInPass h bs _ _ _ hb hl _ hn =>
    exact .stuckReading _ (mayRead_of_lt_headerLength hb (by omega)) hn
  | stuckInChecksum h bs c _ _ _ hb hlen _ hk _ hn =>
    have hlegal := (not_headerBad_iff.1 hb).1
    refine .stuckReading _ ?_ hn
    rw [checksumAddr_eq hlen, addr_add]
    exact mayRead_of_lt_headerLength hb (by omega)

theorem readScalar_outcome (n : Nat) (s : State) : CommandOutcome s (readScalar n s) := by
  have hr := readScalar_run n s
  generalize readScalar n s = r at hr ⊢
  cases hr with
  | notValidated | outOfBounds | value => exact .finished _
  | stuck bs _ hb hl _ hn => exact .stuckReading _ (mayRead_fieldStart hb hl) hn

theorem execReadField_outcome (s : State) : CommandOutcome s (execReadField s) := by
  have hr := execReadField_run s
  generalize execReadField s = r at hr ⊢
  cases hr with
  | notValidated | outOfBounds | copies => exact .finished _
  | stuckReading bs _ hb hl _ _ hn => exact .stuckReading _ (mayRead_fieldStart hb hl) hn
  | stuckWriting bs b _ _ hl _ _ hn => exact .stuckWriting _ ⟨_, hl, rfl⟩ hn
  | overlaps bs b _ _ hl _ _ _ ho => exact .overlaps _ ⟨_, hl, rfl⟩ ho

theorem execCommand_outcome (c : Command) (s : State) : CommandOutcome s (execCommand c s) := by
  cases c with
  | crcReset | crcUpdate | crcFinalize | illegal => exact .finished _
  | validate => exact execValidate_outcome s
  | readField => exact execReadField_outcome s
  | readScalarB => exact readScalar_outcome 1 s
  | readScalarH => exact readScalar_outcome 2 s
  | readScalarW => exact readScalar_outcome 4 s

/-- Where every access is admitted, none of the failures can happen. -/
theorem execCommand_finishes {s : State} (h : AccessesAdmitted s) (c : Command) :
    ∃ t, execCommand c s = .next t := by
  have ho := execCommand_outcome c s
  generalize execCommand c s = r at ho ⊢
  cases ho with
  | finished t => exact ⟨t, rfl⟩
  | stuckReading t ha hn => exact absurd hn (not_silent_of_mayRead h ha)
  | stuckWriting t ha hn => exact absurd hn (ne_false_of_eq_true (writable_of_mayWrite h ha).1)
  | overlaps t ha ho => exact absurd ho (ne_true_of_eq_false (writable_of_mayWrite h ha).2)

/-- A command is stuck only at an access that is not admitted. -/
theorem execCommand_fault {c : Command} {s : State} {f : Fault} (h : execCommand c s = .fault f) :
    (∃ a t, f = .storageStuck a t ∧ s.storageAdmits a = false) ∨
      (∃ a t, f = .destStuck a t ∧ s.destAdmits a = false) := by
  have ho := execCommand_outcome c s
  rw [h] at ho
  cases ho with
  | stuckReading t _ hn => exact .inl ⟨_, t, rfl, by rw [State.storageAdmits, hn]; rfl⟩
  | stuckWriting t _ hn => exact .inr ⟨_, t, rfl, hn⟩

/-! ### Counting what a command that finishes has recorded (R259) -/

/-- VALIDATE adds storage reads only, at most L + 5 for the length L it latches. -/
theorem execValidate_reads {s t : State} (h : execValidate s = .next t) : ∃ es : List Event,
    t.history = es ++ s.history ∧ es.countP isStorageRead = es.length ∧
      es.countP isStorageRead ≤ t.hdrLen.toNat + 5 := by
  cases execValidate_eq_next_iff.1 h with
  | smallRegion hs => exact ⟨[], rfl, rfl, Nat.zero_le _⟩
  | @badLength hd hh hb =>
    exact ⟨(readEvents s.regionBase hd).reverse, rfl, by simp, by simp [hh.length]⟩
  | @verdict hd bs c hb =>
    have hlen := hb.nine_le
    refine ⟨(blockReads s hd bs c).reverse, congrArg State.history (summed_eq s hd bs c), ?_, ?_⟩
    · simp [blockReads]
    · change _ ≤ headerLength hd + 5
      simp only [blockReads, List.countP_reverse, List.countP_append, countP_isStorageRead_readEvents,
        hb.length, hb.covered_length, hb.checksum_length]
      omega

/-- READ_FIELD adds as many storage reads as destination writes, one of each for a byte it copies. -/
theorem execReadField_accesses {s t : State} (h : execReadField s = .next t) : ∃ es : List Event,
    t.history = es ++ s.history ∧ es.countP isStorageRead + es.countP isDestWrite = es.length ∧
      es.countP isStorageRead ≤ 65535 ∧ es.countP isDestWrite ≤ 65535 := by
  have hr := execReadField_run s
  rw [h] at hr
  generalize ht : (Host.Outcome.next t : Result) = r at hr
  cases hr with
  | notValidated | outOfBounds => cases ht; exact ⟨[], rfl, rfl, by decide, by decide⟩
  | stuckReading | stuckWriting | overlaps => cases ht
  | copies bs _ _ hl =>
    cases ht
    have hsize := s.argSize.isLt
    refine ⟨_, copied_history s _ _ bs, ?_⟩
    simp only [List.countP_reverse, countP_isStorageRead_copyEvents, countP_isDestWrite_copyEvents,
      List.length_reverse, length_copyEvents]
    omega

/-- Settles O40: a CMD write issues its command in a state with the same accesses admitted. -/
theorem commandsFinishWhereAccessesAreAdmitted : Obligations.CommandsFinishWhereAccessesAreAdmitted := by
  refine fun s => ⟨fun h => ⟨fun c => ?_, fun w => ?_⟩, fun _ => execValidate_reads,
    fun _ => execReadField_accesses, fun c f hf => ?_⟩
  · rw [exec_toInstr]
    exact execCommand_finishes h c
  · rw [execWrCmd_eq]
    exact execCommand_finishes (s := s.log (.regWrite 0x00 w)) h (decodeCommand w)
  · rw [exec_toInstr] at hf
    exact execCommand_fault hf

end Sys2Proof.Machine
end
